-- ==== Sys2Proof/Word.lean ====
section
/-! DEFINITION. The word types of CORE. Every quantity the spec calls a register content, an address in
computation or an instruction field is a bit vector of the width rules R5 and R9 give it. A 4-bit
instruction field names one of sixteen things (a register, a row count), so it is an index, not a bit vector. -/

namespace Sys2Proof

/-- A memory cell, a general register `V[i]` or a timer (R5, R9): 8 bits. -/
abbrev Byte := BitVec 8

/-- `I`, `PC`, `IR`, a stack slot, `UCNT` (R5, R9): 16 bits. All sums on it wrap modulo 65536 (R12, R13). -/
abbrev Word := BitVec 16

/-- The address field `nnn` of an instruction (R62) and the load port's `ld_addr` (R8): 12 bits. -/
abbrev Addr := BitVec 12

/-- A 4-bit instruction field `x`, `y` or `n` (R62): a number `0..15`. -/
abbrev Nibble := Fin 16

end Sys2Proof
end

