-- ==== Sys2Proof/Syntax.lean ====
section
/-! DEFINITION. The instructions of CORE: one constructor per row of spec/opcode_table.json, in the table's order
(R64). Operands are the decoded fields of R62, each of exactly the field's width. -/

namespace Sys2Proof

/-- The 34 instructions (R64). -/
inductive Instr where
  /-- `CLS`, `00E0` (R80). -/
  | cls
  /-- `RET`, `00EE` (R83). -/
  | ret
  /-- `JP nnn`, `1nnn` (R81). -/
  | jp (nnn : Addr)
  /-- `CALL nnn`, `2nnn` (R82). -/
  | call (nnn : Addr)
  /-- `SE Vx, kk`, `3xkk` (R90). -/
  | seB (x : Nibble) (kk : Byte)
  /-- `SNE Vx, kk`, `4xkk` (R91). -/
  | sneB (x : Nibble) (kk : Byte)
  /-- `SE Vx, Vy`, `5xy0` (R92). -/
  | seR (x y : Nibble)
  /-- `LD Vx, kk`, `6xkk` (R101). -/
  | ldB (x : Nibble) (kk : Byte)
  /-- `ADD Vx, kk`, `7xkk` (R102). -/
  | addB (x : Nibble) (kk : Byte)
  /-- `LD Vx, Vy`, `8xy0` (R103). -/
  | ldR (x y : Nibble)
  /-- `OR Vx, Vy`, `8xy1` (R104). -/
  | orR (x y : Nibble)
  /-- `AND Vx, Vy`, `8xy2` (R105). -/
  | andR (x y : Nibble)
  /-- `XOR Vx, Vy`, `8xy3` (R106). -/
  | xorR (x y : Nibble)
  /-- `ADD Vx, Vy`, `8xy4` (R107). -/
  | addR (x y : Nibble)
  /-- `SUB Vx, Vy`, `8xy5` (R108). -/
  | sub (x y : Nibble)
  /-- `SHR Vx`, `8xy6` (R109). The field `y` is decoded and ignored. -/
  | shr (x y : Nibble)
  /-- `SUBN Vx, Vy`, `8xy7` (R110). -/
  | subn (x y : Nibble)
  /-- `SHL Vx`, `8xyE` (R111). The field `y` is decoded and ignored. -/
  | shl (x y : Nibble)
  /-- `SNE Vx, Vy`, `9xy0` (R93). -/
  | sneR (x y : Nibble)
  /-- `LD I, nnn`, `Annn` (R120). -/
  | ldI (nnn : Addr)
  /-- `JP V0, nnn`, `Bnnn` (R121). -/
  | jpV0 (nnn : Addr)
  /-- `RND Vx, kk`, `Cxkk` (R124). -/
  | rnd (x : Nibble) (kk : Byte)
  /-- `DRW Vx, Vy, n`, `Dxyn` (R130). -/
  | drw (x y n : Nibble)
  /-- `SKP Vx`, `Ex9E` (R140). -/
  | skp (x : Nibble)
  /-- `SKNP Vx`, `ExA1` (R141). -/
  | sknp (x : Nibble)
  /-- `LD Vx, DT`, `Fx07` (R143). -/
  | ldGdt (x : Nibble)
  /-- `LD Vx, K`, `Fx0A` (R142). -/
  | ldK (x : Nibble)
  /-- `LD DT, Vx`, `Fx15` (R144). -/
  | ldSdt (x : Nibble)
  /-- `LD ST, Vx`, `Fx18` (R145). -/
  | ldSt (x : Nibble)
  /-- `ADD I, Vx`, `Fx1E` (R123). -/
  | addI (x : Nibble)
  /-- `LD F, Vx`, `Fx29` (R122). -/
  | ldF (x : Nibble)
  /-- `LD B, Vx`, `Fx33` (R150). -/
  | ldBcd (x : Nibble)
  /-- `LD [I], Vx`, `Fx55` (R151). -/
  | ldStm (x : Nibble)
  /-- `LD Vx, [I]`, `Fx65` (R152). -/
  | ldLdm (x : Nibble)
deriving DecidableEq, Repr

end Sys2Proof
end

