-- ==== Sys2Proof/Decode.lean ====
section
/-! DEFINITION. The decoder, total on every word and every byte list, the encoder, and the opcode map of R64 as data.
The bit patterns are the spec's adoption of the customary encoding (R61, R64: decision D1 of 92_eei_decisions.md). -/

namespace Sys2Proof

/-! ### Fields (R62) -/

/-- `op = IR[15:12]`, the operation class. -/
def fieldOp (w : Word) : Nibble := (w.extractLsb' 12 4).toFin

/-- `x = IR[11:8]`. -/
def fieldX (w : Word) : Nibble := (w.extractLsb' 8 4).toFin

/-- `y = IR[7:4]`. -/
def fieldY (w : Word) : Nibble := (w.extractLsb' 4 4).toFin

/-- `n = IR[3:0]`, a sprite height or a secondary opcode. -/
def fieldN (w : Word) : Nibble := (w.extractLsb' 0 4).toFin

/-- `kk = IR[7:0]`, an immediate byte or a secondary opcode. -/
def fieldKK (w : Word) : Byte := w.extractLsb' 0 8

/-- `nnn = IR[11:0]`. -/
def fieldNNN (w : Word) : Addr := w.extractLsb' 0 12

/-! ### Decoding (R63, R65) -/

/-- Why no instruction is read: one name for each row of R65's table of unrecognised patterns, and one for a byte
list that ends before the second byte. -/
inductive Reject where
  /-- `0nnn` with `nnn` not `0E0` and not `0EE`. -/
  | machineRoutine
  /-- `5xyN` with `N` not 0. -/
  | skipEqualTail
  /-- `8xyN` with `N` in `8, 9, A, B, C, D, F`. -/
  | arithmeticTail
  /-- `9xyN` with `N` not 0. -/
  | skipNotEqualTail
  /-- `ExKK` with `KK` not `9E` and not `A1`. -/
  | keyTail
  /-- `FxKK` with `KK` none of the nine of R64. -/
  | miscTail
  /-- Fewer than the two bytes of an instruction (R60). -/
  | truncated
deriving DecidableEq, Repr

/-- Top nibble `0`: the whole word decides (R63). -/
def decodeZero (w : Word) : Except Reject Instr :=
  match (fieldNNN w).toNat with
  | 0x0E0 => .ok .cls
  | 0x0EE => .ok .ret
  | _ => .error .machineRoutine

/-- Top nibble `8`: the low nibble decides (R63). -/
def decodeArith (w : Word) : Except Reject Instr :=
  match (fieldN w).val with
  | 0x0 => .ok (.ldR (fieldX w) (fieldY w))
  | 0x1 => .ok (.orR (fieldX w) (fieldY w))
  | 0x2 => .ok (.andR (fieldX w) (fieldY w))
  | 0x3 => .ok (.xorR (fieldX w) (fieldY w))
  | 0x4 => .ok (.addR (fieldX w) (fieldY w))
  | 0x5 => .ok (.sub (fieldX w) (fieldY w))
  | 0x6 => .ok (.shr (fieldX w) (fieldY w))
  | 0x7 => .ok (.subn (fieldX w) (fieldY w))
  | 0xE => .ok (.shl (fieldX w) (fieldY w))
  | _ => .error .arithmeticTail

/-- Top nibble `E`: the low byte decides (R63). -/
def decodeKey (w : Word) : Except Reject Instr :=
  match (fieldKK w).toNat with
  | 0x9E => .ok (.skp (fieldX w))
  | 0xA1 => .ok (.sknp (fieldX w))
  | _ => .error .keyTail

/-- Top nibble `F`: the low byte decides (R63). -/
def decodeMisc (w : Word) : Except Reject Instr :=
  match (fieldKK w).toNat with
  | 0x07 => .ok (.ldGdt (fieldX w))
  | 0x0A => .ok (.ldK (fieldX w))
  | 0x15 => .ok (.ldSdt (fieldX w))
  | 0x18 => .ok (.ldSt (fieldX w))
  | 0x1E => .ok (.addI (fieldX w))
  | 0x29 => .ok (.ldF (fieldX w))
  | 0x33 => .ok (.ldBcd (fieldX w))
  | 0x55 => .ok (.ldStm (fieldX w))
  | 0x65 => .ok (.ldLdm (fieldX w))
  | _ => .error .miscTail

/-- Decode a 16-bit instruction: dispatch on the highest nibble, then on the secondary field where R63 names one.
Decoding is strict: every fixed bit of a row must match (R63, decision D2). -/
def decodeWord (w : Word) : Except Reject Instr :=
  match (fieldOp w).val with
  | 0x0 => decodeZero w
  | 0x1 => .ok (.jp (fieldNNN w))
  | 0x2 => .ok (.call (fieldNNN w))
  | 0x3 => .ok (.seB (fieldX w) (fieldKK w))
  | 0x4 => .ok (.sneB (fieldX w) (fieldKK w))
  | 0x5 => if fieldN w = 0 then .ok (.seR (fieldX w) (fieldY w)) else .error .skipEqualTail
  | 0x6 => .ok (.ldB (fieldX w) (fieldKK w))
  | 0x7 => .ok (.addB (fieldX w) (fieldKK w))
  | 0x8 => decodeArith w
  | 0x9 => if fieldN w = 0 then .ok (.sneR (fieldX w) (fieldY w)) else .error .skipNotEqualTail
  | 0xA => .ok (.ldI (fieldNNN w))
  | 0xB => .ok (.jpV0 (fieldNNN w))
  | 0xC => .ok (.rnd (fieldX w) (fieldKK w))
  | 0xD => .ok (.drw (fieldX w) (fieldY w) (fieldN w))
  | 0xE => decodeKey w
  | _ => decodeMisc w

/-- Big-endian assembly of two bytes (R43): the byte at the lower address is the high one. -/
def joinBytes (hi lo : Byte) : Word := (hi.setWidth 16 <<< 8) ||| lo.setWidth 16

/-- The byte that stands at an instruction's own address (R43). -/
def highByte (w : Word) : Byte := w.extractLsb' 8 8

/-- The byte that stands one address higher (R43). -/
def lowByte (w : Word) : Byte := w.extractLsb' 0 8

/-- Decode the instruction at the head of a byte list, lowest address first (R60, R43), and return the bytes after it. -/
def decode : List Byte → Except Reject (Instr × List Byte)
  | hi :: lo :: rest =>
    match decodeWord (joinBytes hi lo) with
    | .ok i => .ok (i, rest)
    | .error e => .error e
  | _ => .error .truncated

/-! ### Encoding (R61, R64) -/

/-- Format `A`: `op nnn`. -/
def formA (op : BitVec 4) (nnn : Addr) : Word := op ++ nnn

/-- Format `XK`: `op x kk`. -/
def formXK (op : BitVec 4) (x : Nibble) (kk : Byte) : Word := op ++ ((BitVec.ofFin x : BitVec 4) ++ kk)

/-- Formats `XY` and `XYN`: `op x y` and a last nibble, which is the fixed `sub` or the field `n`. -/
def formXYN (op : BitVec 4) (x y n : Nibble) : Word :=
  op ++ ((BitVec.ofFin x : BitVec 4) ++ ((BitVec.ofFin y : BitVec 4) ++ (BitVec.ofFin n : BitVec 4)))

/-- Format `X`: `op x` and a fixed low byte. -/
def formX (op : BitVec 4) (x : Nibble) (sub : Byte) : Word := formXK op x sub

/-- The word of an instruction, row by row from R64. -/
def encode : Instr → Word
  | .cls => 0x00E0
  | .ret => 0x00EE
  | .jp nnn => formA 0x1 nnn
  | .call nnn => formA 0x2 nnn
  | .seB x kk => formXK 0x3 x kk
  | .sneB x kk => formXK 0x4 x kk
  | .seR x y => formXYN 0x5 x y 0x0
  | .ldB x kk => formXK 0x6 x kk
  | .addB x kk => formXK 0x7 x kk
  | .ldR x y => formXYN 0x8 x y 0x0
  | .orR x y => formXYN 0x8 x y 0x1
  | .andR x y => formXYN 0x8 x y 0x2
  | .xorR x y => formXYN 0x8 x y 0x3
  | .addR x y => formXYN 0x8 x y 0x4
  | .sub x y => formXYN 0x8 x y 0x5
  | .shr x y => formXYN 0x8 x y 0x6
  | .subn x y => formXYN 0x8 x y 0x7
  | .shl x y => formXYN 0x8 x y 0xE
  | .sneR x y => formXYN 0x9 x y 0x0
  | .ldI nnn => formA 0xA nnn
  | .jpV0 nnn => formA 0xB nnn
  | .rnd x kk => formXK 0xC x kk
  | .drw x y n => formXYN 0xD x y n
  | .skp x => formX 0xE x 0x9E
  | .sknp x => formX 0xE x 0xA1
  | .ldGdt x => formX 0xF x 0x07
  | .ldK x => formX 0xF x 0x0A
  | .ldSdt x => formX 0xF x 0x15
  | .ldSt x => formX 0xF x 0x18
  | .addI x => formX 0xF x 0x1E
  | .ldF x => formX 0xF x 0x29
  | .ldBcd x => formX 0xF x 0x33
  | .ldStm x => formX 0xF x 0x55
  | .ldLdm x => formX 0xF x 0x65

/-- The two bytes of an instruction as they stand in memory, lowest address first (R43, R60). -/
def encodeBytes (i : Instr) : List Byte := [highByte (encode i), lowByte (encode i)]

/-! ### The opcode map as data (R64) -/

/-- The `id` column of R64: the mnemonic of spec/opcode_table.json. -/
def Instr.mnemonic : Instr → String
  | .cls => "CLS"
  | .ret => "RET"
  | .jp _ => "JP"
  | .call _ => "CALL"
  | .seB _ _ => "SE.B"
  | .sneB _ _ => "SNE.B"
  | .seR _ _ => "SE.R"
  | .ldB _ _ => "LD.B"
  | .addB _ _ => "ADD.B"
  | .ldR _ _ => "LD.R"
  | .orR _ _ => "OR"
  | .andR _ _ => "AND"
  | .xorR _ _ => "XOR"
  | .addR _ _ => "ADD.R"
  | .sub _ _ => "SUB"
  | .shr _ _ => "SHR"
  | .subn _ _ => "SUBN"
  | .shl _ _ => "SHL"
  | .sneR _ _ => "SNE.R"
  | .ldI _ => "LD.I"
  | .jpV0 _ => "JP.V0"
  | .rnd _ _ => "RND"
  | .drw _ _ _ => "DRW"
  | .skp _ => "SKP"
  | .sknp _ => "SKNP"
  | .ldGdt _ => "LD.GDT"
  | .ldK _ => "LD.K"
  | .ldSdt _ => "LD.SDT"
  | .ldSt _ => "LD.ST"
  | .addI _ => "ADD.I"
  | .ldF _ => "LD.F"
  | .ldBcd _ => "LD.BCD"
  | .ldStm _ => "LD.STM"
  | .ldLdm _ => "LD.LDM"

/-- One row of the opcode map: `IR` selects it exactly when `(IR & mask) = pat` (R63). -/
structure OpcodeRow where
  mnemonic : String
  pat : Word
  mask : Word
deriving DecidableEq, Repr

/-- The word selects the row (R63). -/
def OpcodeRow.selectedBy (r : OpcodeRow) (w : Word) : Bool := (w &&& r.mask) == r.pat

/-- Rows whose whole word, or whose top nibble alone, is fixed (R64). -/
def opcodeRowsPlain : List OpcodeRow :=
  [⟨"CLS", 0x00E0, 0xFFFF⟩, ⟨"RET", 0x00EE, 0xFFFF⟩, ⟨"JP", 0x1000, 0xF000⟩, ⟨"CALL", 0x2000, 0xF000⟩,
   ⟨"SE.B", 0x3000, 0xF000⟩, ⟨"SNE.B", 0x4000, 0xF000⟩, ⟨"LD.B", 0x6000, 0xF000⟩, ⟨"ADD.B", 0x7000, 0xF000⟩,
   ⟨"LD.I", 0xA000, 0xF000⟩, ⟨"JP.V0", 0xB000, 0xF000⟩, ⟨"RND", 0xC000, 0xF000⟩, ⟨"DRW", 0xD000, 0xF000⟩]

/-- Rows whose low nibble is fixed as well (R64). -/
def opcodeRowsXY : List OpcodeRow :=
  [⟨"SE.R", 0x5000, 0xF00F⟩, ⟨"LD.R", 0x8000, 0xF00F⟩, ⟨"OR", 0x8001, 0xF00F⟩, ⟨"AND", 0x8002, 0xF00F⟩,
   ⟨"XOR", 0x8003, 0xF00F⟩, ⟨"ADD.R", 0x8004, 0xF00F⟩, ⟨"SUB", 0x8005, 0xF00F⟩, ⟨"SHR", 0x8006, 0xF00F⟩,
   ⟨"SUBN", 0x8007, 0xF00F⟩, ⟨"SHL", 0x800E, 0xF00F⟩, ⟨"SNE.R", 0x9000, 0xF00F⟩]

/-- Rows whose low byte is fixed as well (R64). -/
def opcodeRowsX : List OpcodeRow :=
  [⟨"SKP", 0xE09E, 0xF0FF⟩, ⟨"SKNP", 0xE0A1, 0xF0FF⟩, ⟨"LD.GDT", 0xF007, 0xF0FF⟩, ⟨"LD.K", 0xF00A, 0xF0FF⟩,
   ⟨"LD.SDT", 0xF015, 0xF0FF⟩, ⟨"LD.ST", 0xF018, 0xF0FF⟩, ⟨"ADD.I", 0xF01E, 0xF0FF⟩, ⟨"LD.F", 0xF029, 0xF0FF⟩,
   ⟨"LD.BCD", 0xF033, 0xF0FF⟩, ⟨"LD.STM", 0xF055, 0xF0FF⟩, ⟨"LD.LDM", 0xF065, 0xF0FF⟩]

/-- The 34 rows of R64. -/
def opcodeTable : List OpcodeRow := opcodeRowsPlain ++ (opcodeRowsXY ++ opcodeRowsX)

/-! ### The host's view of the decoder -/

/-- The instruction the decoder reads when the low 16 of `nbits` bits of `w` are laid out in memory as R43 says. -/
def decodeTableWord (nbits w : Nat) : Option Instr :=
  let word : Word := BitVec.ofNat 16 (w % 2 ^ nbits)
  match decode [highByte word, lowByte word] with
  | .ok (i, _) => some i
  | .error _ => none

end Sys2Proof
end

