-- ==== Sys2Proof/Config.lean ====
section
/-! DEFINITION. What is fixed for the machine (R5), the type of the one open parameter an instruction reads
(R6), and the values the spec leaves free: the inputs of a step (R8, R168, R171, R172). The values chosen for the open
parameters `IDX_CARRY_LIMIT` and `FONT_TABLE` stand in Machine/Parameters.lean. -/

namespace Sys2Proof

/-- `MEM_SIZE` (R5). -/
def Config.memSize : Nat := 4096

/-- `PROG_BASE` (R5): first address of the program image and reset value of `PC`. -/
def Config.progBase : Nat := 0x200

/-- `PROG_MAX` (R5): the largest program image in bytes. -/
def Config.progMax : Nat := 0xE00

/-- The two values the open parameter `IDX_CARRY_LIMIT` may take (R6). -/
inductive CarryLimit where
  /-- `0x0FFF`: the flag of `ADD.I` reports leaving the 4096-byte address range. -/
  | addressRange
  /-- `0xFFFF`: the flag of `ADD.I` is the carry out of the 16-bit register. -/
  | register
deriving DecidableEq, Repr

/-- The number that `ADD.I` compares the unwrapped sum with (R6, R123). -/
def CarryLimit.value : CarryLimit → Nat
  | .addressRange => 0x0FFF
  | .register => 0xFFFF

/-- The inputs of one step (R8): the key levels, the random number, and whether a `TickArrive` event occurred
since the previous step's timer phase. -/
structure StepInputs where
  /-- `key_in`: bit `k` is 1 exactly when logical key `k` is held (R171). -/
  keyIn : BitVec 16
  /-- `rnd_in`: any natural number (R172; `RND_RANGE` is unbounded, R6, log entry 3). -/
  rndIn : Nat
  /-- A tick arrived (R168). -/
  tick : Bool
deriving DecidableEq, Repr

/-- Free values: what the host presents at the step numbered `k` when no input has been scheduled for it.
No proof can see them, so a claim that meets them holds for every input (R171, R172; log entry 4). -/
opaque Config.freeKeys : Nat → BitVec 16

/-- See `Config.freeKeys`. -/
opaque Config.freeRandom : Nat → Nat

/-- See `Config.freeKeys`. -/
opaque Config.freeTick : Nat → Bool

end Sys2Proof
end

