-- ==== Sys2Proof/Machine/Parameters.lean ====
section
/-! DEFINITION. The values this model takes for the spec's open parameters (R6): it fixes the spec's defaults, and says so
in log entries 1 and 2. What a cell of memory that nothing has written reads as follows from the font table. -/

namespace Sys2Proof.Machine

/-- Glyphs `0..3` of R42, top row first. -/
def fontGlyphs0 : List Byte :=
  [0xF0, 0x90, 0x90, 0x90, 0xF0, 0x20, 0x60, 0x20, 0x20, 0x70,
   0xF0, 0x10, 0xF0, 0x80, 0xF0, 0xF0, 0x10, 0xF0, 0x10, 0xF0]

/-- Glyphs `4..7` of R42. -/
def fontGlyphs4 : List Byte :=
  [0x90, 0x90, 0xF0, 0x10, 0x10, 0xF0, 0x80, 0xF0, 0x10, 0xF0,
   0xF0, 0x80, 0xF0, 0x90, 0xF0, 0xF0, 0x10, 0x20, 0x40, 0x40]

/-- Glyphs `8..B` of R42. -/
def fontGlyphs8 : List Byte :=
  [0xF0, 0x90, 0xF0, 0x90, 0xF0, 0xF0, 0x90, 0xF0, 0x10, 0xF0,
   0xF0, 0x90, 0xF0, 0x90, 0x90, 0xE0, 0x90, 0xE0, 0x90, 0xE0]

/-- Glyphs `C..F` of R42. -/
def fontGlyphsC : List Byte :=
  [0xF0, 0x80, 0x80, 0x80, 0xF0, 0xE0, 0x90, 0x90, 0x90, 0xE0,
   0xF0, 0x80, 0xF0, 0x80, 0xF0, 0xF0, 0x80, 0xF0, 0x80, 0x80]

/-- `FONT_TABLE` (R42): the 80 bytes at `0x000..0x04F` after reset. DESIGN CHOICE (the spec's default; log entry 1). -/
def fontTable : List Byte := (fontGlyphs0 ++ fontGlyphs4) ++ (fontGlyphs8 ++ fontGlyphsC)

/-- `IDX_CARRY_LIMIT` (R6). DESIGN CHOICE (the spec's default `0x0FFF`; log entry 2). -/
def idxCarryLimit : CarryLimit := .addressRange

/-- What a cell reads as while nothing has been written to it: its reset content (R30, R41), the font table at
`0x000..0x04F` and zero above. -/
def unlistedByte (a : Nat) : Byte := fontTable.getD a 0x00

end Sys2Proof.Machine
end

