-- ==== Sys2Proof/Machine/State.lean ====
section
/-! DEFINITION. The state of CORE: every piece of state of file 10_state.md (R10 to R24) and 20_memory.md (R40), plus
three fields of the model's own that carry a port's value or the host's inputs (log entries 4, 5, 6). -/

namespace Sys2Proof.Machine

/-- `MODE` (R24). -/
inductive Mode where
  /-- The load port is live and step requests are ignored. -/
  | load
  /-- The load port is dead and step requests are honoured. -/
  | run
deriving DecidableEq, Repr

/-- The five error conditions, the bits of `ERR` (R161). -/
inductive ErrCond where
  /-- `IR` matches no row of the opcode table. -/
  | undef
  /-- `CALL` with `SP = 16`. -/
  | stkovf
  /-- `RET` with `SP = 0`. -/
  | stkunf
  /-- A memory access at a 16-bit address above `0x0FFF`. -/
  | addr
  /-- `SKP` or `SKNP` with `V[x] > 15`. -/
  | key
deriving DecidableEq, Repr

/-- Main memory as the cells that differ from their reset content, addresses strictly rising (R19, R40).
The canonical form is `Memory.wf` of Machine/Ops.lean. -/
abbrev Memory := List Host.Cell

/-- The state of CORE. -/
structure State where
  /-- `V[0]..V[15]` (R10). `V[15]` is `VF` (R11). -/
  v : Vector Byte 16
  /-- `I` (R12). -/
  i : Word
  /-- `PC` (R13). -/
  pc : Word
  /-- `IR`, the instruction last fetched (R14). -/
  ir : Word
  /-- `STACK[0]..STACK[15]` (R15). -/
  stack : Vector Word 16
  /-- `SP`, the number of valid return addresses: a 5-bit register whose legal values are `0..16` (R16, R20). -/
  sp : Fin 17
  /-- `DT` (R17). -/
  dt : Byte
  /-- `ST` (R17). -/
  st : Byte
  /-- `FB` (R18): 32 rows of 64 one-bit cells. `FB[row*64 + col]` is bit `col` of row `row`. -/
  fb : Vector (BitVec 64) 32
  /-- `MEM` (R19, R40). -/
  mem : Memory
  /-- `TICKP`, the pending-tick latch (R21). -/
  tickP : Bool
  /-- `ERR` (R22), bit numbers as in R161. -/
  err : BitVec 5
  /-- `UCNT` (R23). -/
  ucnt : BitVec 16
  /-- `MODE` (R24). -/
  mode : Mode
  /-- The model's own: whether output `fb_changed` was pulsed with the last `step_done` (R29, R132; log entry 6). -/
  fbChanged : Bool
  /-- The model's own: the inputs the host presents at the coming steps, the next step's first (R8; log entry 4). -/
  inputs : List StepInputs
  /-- The model's own: the number of steps performed, the argument of the free inputs (log entries 4, 5). -/
  clock : Nat
deriving DecidableEq, Repr

/-- The reasons a step can stop with a fault: none. CORE records every error condition in `ERR` and goes on
(R160, R161, R166: "executed as defined no-ops"), so the type is empty and every step completes (R28). Safe. -/
inductive Fault where
deriving DecidableEq, Repr

/-- The reasons an instruction can be refused. -/
inductive Refusal where
  /-- Raised only by an arm of `exec` whose instruction has no meaning yet; no arm does. Safe. -/
  | notModelled (mnemonic : String)
deriving DecidableEq, Repr

/-- The machine right after reset (R30, R190). The last three fields are the model's own (log entry 5). -/
def State.reset : State where
  v := Vector.replicate 16 0x00
  i := 0x0000
  pc := 0x0200
  ir := 0x0000
  stack := Vector.replicate 16 0x0000
  sp := 0
  dt := 0x00
  st := 0x00
  fb := Vector.replicate 32 0
  mem := []
  tickP := false
  err := 0
  ucnt := 0x0000
  mode := .load
  fbChanged := false
  inputs := []
  clock := 0

end Sys2Proof.Machine
end

