-- ==== Sys2Proof/Machine/Ops.lean ====
section
/-! DEFINITION. The named operations over registers, stack, framebuffer, memory and status. Every meaning goes through
them. Taking an exception: CORE has no trap entry and no trap return (R160, R164, R166, R167); what stands in their
place is `raise`, the one operation by which every error condition is recorded (R161). -/

namespace Sys2Proof.Machine

/-! ### General registers, `I`, `PC`, timers -/

/-- `V[x]` (R10). -/
def State.reg (s : State) (x : Nibble) : Byte := s.v[x]

/-- `V[x] <- b` (R10). No register is hardwired. -/
def State.setReg (s : State) (x : Nibble) (b : Byte) : State := { s with v := s.v.set x b }

/-- The index of `VF` (R11). -/
def vF : Nibble := 0xF

/-- `I <- w` (R12). Never clamped. -/
def State.setI (s : State) (w : Word) : State := { s with i := w }

/-- `PC <- w` (R13). Never clamped and never masked. -/
def State.setPc (s : State) (w : Word) : State := { s with pc := w }

/-- A skip over one instruction (R13, file 41): `PC <- (PC + 2) mod 65536`, where `PC` is already `PCnext`. -/
def State.skipNext (s : State) : State := s.setPc (s.pc + 2)

/-- Skip when the condition holds. -/
def State.skipIf (s : State) (c : Bool) : State := if c then s.skipNext else s

/-- `DT <- b` (R17). -/
def State.setDt (s : State) (b : Byte) : State := { s with dt := b }

/-- `ST <- b` (R17). -/
def State.setSt (s : State) (b : Byte) : State := { s with st := b }

/-! ### Error conditions (R161) -/

/-- The bit number of a condition in `ERR` (R161, column "code"). -/
def ErrCond.code : ErrCond → Nat
  | .undef => 0
  | .stkovf => 1
  | .stkunf => 2
  | .addr => 3
  | .key => 4

/-- `raise <Cond>` (R9, R161): set the sticky bit; execution continues. -/
def State.raise (c : ErrCond) (s : State) : State := { s with err := s.err ||| BitVec.twoPow 5 c.code }

/-- The condition has been recorded (R22). -/
def State.recorded (s : State) (c : ErrCond) : Bool := s.err.getLsbD c.code

/-- `UCNT <- min(UCNT + 1, 0xFFFF)` (R23). -/
def saturatingSucc (c : BitVec 16) : BitVec 16 := if c = 0xFFFF then c else c + 1

/-- An unrecognised instruction: a no-op that is recorded and counted (R65). -/
def unrecognised (s : State) : State := { s.raise .undef with ucnt := saturatingSucc s.ucnt }

/-! ### Call stack (R15, R16) -/

/-- `STACK[SP] <- w; SP <- SP + 1`, for a stack that is not full. -/
def State.push (s : State) (w : Word) (h : s.sp.val < 16) : State :=
  { s with stack := s.stack.set s.sp.val w h, sp := ⟨s.sp.val + 1, by omega⟩ }

/-- `SP <- SP - 1; PC <- STACK[SP]`, for a stack that is not empty. The slot keeps its value (R83). -/
def State.popPc (s : State) (h : 0 < s.sp.val) : State :=
  { s with sp := ⟨s.sp.val - 1, by omega⟩, pc := s.stack[s.sp.val - 1] }

/-! ### Framebuffer (R18) -/

/-- `FB[row*64 + col]`. -/
def State.pixel (s : State) (row : Fin 32) (col : Fin 64) : Bool := s.fb[row].getLsbD col

/-- `FB[row*64 + col] <- FB[row*64 + col] ^ 1`. -/
def State.flipPixel (s : State) (row : Fin 32) (col : Fin 64) : State :=
  { s with fb := s.fb.set row (s.fb[row] ^^^ BitVec.twoPow 64 col) }

/-- Every cell `<- 0`. -/
def State.clearScreen (s : State) : State := { s with fb := Vector.replicate 32 0 }

/-! ### Memory (R19, R40, R47) -/

/-- The byte a cell holds: what is listed for it, or its reset content. -/
def Memory.read : Memory → Nat → Byte
  | [], a => unlistedByte a
  | (k, b) :: m, a => if k = a then b else Memory.read m a

/-- Forget what is listed for a cell. -/
def Memory.erase (m : Memory) (a : Nat) : Memory := List.filter (fun c => decide (c.1 ≠ a)) m

/-- List a cell before the first one with a higher address. -/
def Memory.insert : Memory → Nat → Byte → Memory
  | [], a, b => [(a, b)]
  | (k, d) :: m, a, b => if a < k then (a, b) :: (k, d) :: m else (k, d) :: Memory.insert m a b

/-- Write one cell: it is listed exactly when the byte differs from the cell's reset content. -/
def Memory.write (m : Memory) (a : Nat) (b : Byte) : Memory :=
  if b = unlistedByte a then Memory.erase m a else Memory.insert (Memory.erase m a) a b

/-- The canonical form: addresses strictly rising and inside the 4096 cells, no entry equal to what an unlisted
address reads as. -/
abbrev Memory.wf (m : Memory) : Prop :=
  List.Pairwise (fun c d : Host.Cell => c.1 < d.1) m ∧ ∀ c ∈ m, c.1 < Config.memSize ∧ c.2 ≠ unlistedByte c.1

/-- `addr[11:0]`, the cell a 16-bit address selects (R47, decision D6). -/
def cellOf (a : Word) : Nat := a.toNat % Config.memSize

/-- The address lies above `0x0FFF` (R47). -/
def outOfRange (a : Word) : Bool := decide (0x0FFF < a.toNat)

/-- `if addr > 0x0FFF: raise ADDR` (R47): what every access does to the state beside its effect. -/
def State.checkAddr (s : State) (a : Word) : State := if outOfRange a then s.raise .addr else s

/-- The byte `MemRead(a, 1)` returns (R47). -/
def State.readByte (s : State) (a : Word) : Byte := Memory.read s.mem (cellOf a)

/-- `MemRead(a, 1)` (R47): the byte, and the state after the read. -/
def State.memRead (s : State) (a : Word) : Byte × State := (s.readByte a, s.checkAddr a)

/-- `MemWrite(a, 1, b)` (R47). -/
def State.memWrite (s : State) (a : Word) (b : Byte) : State :=
  { s.checkAddr a with mem := Memory.write s.mem (cellOf a) b }

/-! ### Inputs of the step (R8) -/

/-- What the host presents at this step: the scheduled inputs, or free values when none are scheduled (log entry 4). -/
def State.nowInputs (s : State) : StepInputs :=
  match s.inputs with
  | inp :: _ => inp
  | [] => ⟨Config.freeKeys s.clock, Config.freeRandom s.clock, Config.freeTick s.clock⟩

/-- `key_in[k]` (R171). -/
def State.keyDown (s : State) (k : Nibble) : Bool := s.nowInputs.keyIn.getLsbD k

end Sys2Proof.Machine
end

