-- ==== Sys2Proof/Machine/Flags.lean ====
section
/-! DEFINITION. Every flag computation the spec gives (R11, R100), and the two-step order of the flag writers. `VF` is an
ordinary register: a flag is a byte 0 or 1 written to it. -/

namespace Sys2Proof.Machine

/-- The byte a flag writes: "(1 or 0)" (R100). -/
def flagByte (c : Bool) : Byte := if c then 1 else 0

/-- `V[0xF] <- c` (R11). -/
def State.setFlag (s : State) (c : Bool) : State := s.setReg vF (flagByte c)

/-- Carry of `ADD.R` (R107): the unwrapped sum exceeds 255. -/
def carryOut (a b : Byte) : Bool := decide (255 < a.toNat + b.toNat)

/-- No borrow in `a - b` (R108, R110): `a >= b`, equality included. -/
def noBorrow (a b : Byte) : Bool := decide (b.toNat ≤ a.toNat)

/-- The bit `SHR` shifts out (R109). -/
def lowBit (a : Byte) : Bool := a.getLsbD 0

/-- The bit `SHL` shifts out (R111). -/
def highBit (a : Byte) : Bool := a.getLsbD 7

/-- Carry of `ADD.I` (R123): the unwrapped sum exceeds the limit. -/
def indexCarry (limit : CarryLimit) (i : Word) (b : Byte) : Bool := decide (limit.value < i.toNat + b.toNat)

/-- The order of the flag writers (R100): the flag first, then the operation on the registers as they then stand. -/
def flagThen (c : Bool) (x y : Nibble) (op : Byte → Byte → Byte) (s : State) : State :=
  (s.setFlag c).setReg x (op ((s.setFlag c).reg x) ((s.setFlag c).reg y))

end Sys2Proof.Machine
end

