-- ==== Sys2Proof/Machine/Operands.lean ====
section
/-! DEFINITION. The operand forms: how an instruction's fields and registers become addresses, coordinates, keys and
bytes (R62 and the rules of files 40 to 46). -/

namespace Sys2Proof.Machine

/-- The register indices, ascending: the order of the loops of R151 and R152 and of the key scan of R142. -/
def nibbles : List Nibble := [0, 1, 2, 3, 4, 5, 6, 7, 8, 9, 10, 11, 12, 13, 14, 15]

/-- The indices `0..x` (R151, R152: "`x` taken from the instruction's register field"). -/
def nibblesUpTo (x : Nibble) : List Nibble := nibbles.filter (fun k => decide (k ≤ x))

/-- `zext_16(nnn)` (R62): the target of `JP` and `CALL`, the value of `LD.I`. -/
def zextAddr (nnn : Addr) : Word := nnn.setWidth 16

/-- `(zext_16(nnn) + zext_16(V[0])) mod 65536` (R121). -/
def offsetTarget (nnn : Addr) (v0 : Byte) : Word := zextAddr nnn + v0.setWidth 16

/-- `zext_16(V[x]) * 5` (R122): `FONT_BASE` is 0 and `GLYPH_STRIDE` is 5. -/
def glyphAddress (b : Byte) : Word := b.setWidth 16 * 5

/-- `(I + k) mod 65536` (file 46, R130): "`I` plus a small constant offset", the one addressing mode. -/
def State.elemAddress (s : State) (k : Nat) : Word := s.i + BitVec.ofNat 16 k

/-- `V[x] mod 64` (R130). -/
def startColumn (b : Byte) : Fin 64 := Fin.ofNat 64 b.toNat

/-- `V[y] mod 32` (R130). -/
def startRow (b : Byte) : Fin 32 := Fin.ofNat 32 b.toNat

/-- `v[3:0]`, the key a register value names (R146, decision D17). -/
def keyNumber (b : Byte) : Nibble := Fin.ofNat 16 b.toNat

/-- The low byte of R124: `((rnd_in mod 255) + 1) & kk`. -/
def randomByte (rnd : Nat) (kk : Byte) : Byte := BitVec.ofNat 8 (rnd % 255 + 1) &&& kk

/-- `v div 100` (R150). -/
def bcdHundreds (b : Byte) : Byte := BitVec.ofNat 8 (b.toNat / 100)

/-- `(v div 10) mod 10` (R150). -/
def bcdTens (b : Byte) : Byte := BitVec.ofNat 8 (b.toNat / 10 % 10)

/-- `v mod 10` (R150). -/
def bcdUnits (b : Byte) : Byte := BitVec.ofNat 8 (b.toNat % 10)

/-- The check of `KeyHeld` (R146): a value above 15 is recorded, and execution continues. -/
def State.checkKey (s : State) (b : Byte) : State := if 15 < b.toNat then s.raise .key else s

/-- The answer of `KeyHeld` (R146). -/
def State.keyHeld (s : State) (b : Byte) : Bool := s.keyDown (keyNumber b)

/-- The least `k` with `key_in[k] = 1` (R142), or none when no key is held. -/
def State.firstKey (s : State) : Option Nibble := nibbles.find? (fun k => s.keyDown k)

end Sys2Proof.Machine
end

