-- ==== Sys2Proof/Machine/Arith.lean ====
section
/-! DEFINITION. Load and arithmetic (file 42) and `RND` (R124). Only `ADD.R`, `SUB`, `SHR`, `SUBN` and `SHL` write `VF` as a
flag (R11). -/

namespace Sys2Proof.Machine

/-- `LD Vx, kk` (R101). -/
def execLdB (x : Nibble) (kk : Byte) (s : State) : Host.Outcome State Fault Refusal := .next (s.setReg x kk)

/-- `ADD Vx, kk` (R102): wraps, no flag. -/
def execAddB (x : Nibble) (kk : Byte) (s : State) : Host.Outcome State Fault Refusal := .next (s.setReg x (s.reg x + kk))

/-- `LD Vx, Vy` (R103). -/
def execLdR (x y : Nibble) (s : State) : Host.Outcome State Fault Refusal := .next (s.setReg x (s.reg y))

/-- `OR Vx, Vy` (R104). -/
def execOr (x y : Nibble) (s : State) : Host.Outcome State Fault Refusal := .next (s.setReg x (s.reg x ||| s.reg y))

/-- `AND Vx, Vy` (R105). -/
def execAnd (x y : Nibble) (s : State) : Host.Outcome State Fault Refusal := .next (s.setReg x (s.reg x &&& s.reg y))

/-- `XOR Vx, Vy` (R106). -/
def execXor (x y : Nibble) (s : State) : Host.Outcome State Fault Refusal := .next (s.setReg x (s.reg x ^^^ s.reg y))

/-- `ADD Vx, Vy` (R107). -/
def execAddR (x y : Nibble) (s : State) : Host.Outcome State Fault Refusal :=
  .next (flagThen (carryOut (s.reg x) (s.reg y)) x y (fun a b => a + b) s)

/-- `SUB Vx, Vy` (R108). -/
def execSub (x y : Nibble) (s : State) : Host.Outcome State Fault Refusal :=
  .next (flagThen (noBorrow (s.reg x) (s.reg y)) x y (fun a b => a - b) s)

/-- `SHR Vx` (R109): in place; the field `y` is ignored (decision D9). -/
def execShr (x _y : Nibble) (s : State) : Host.Outcome State Fault Refusal :=
  .next (flagThen (lowBit (s.reg x)) x x (fun a _ => a >>> 1) s)

/-- `SUBN Vx, Vy` (R110): `V[y] - V[x]`, result to `V[x]`. -/
def execSubn (x y : Nibble) (s : State) : Host.Outcome State Fault Refusal :=
  .next (flagThen (noBorrow (s.reg y) (s.reg x)) x y (fun a b => b - a) s)

/-- `SHL Vx` (R111): in place; the field `y` is ignored (decision D9). -/
def execShl (x _y : Nibble) (s : State) : Host.Outcome State Fault Refusal :=
  .next (flagThen (highBit (s.reg x)) x x (fun a _ => a <<< 1) s)

/-- `RND Vx, kk` (R124): the input `rnd_in` is sampled here. -/
def execRnd (x : Nibble) (kk : Byte) (s : State) : Host.Outcome State Fault Refusal :=
  .next (s.setReg x (randomByte s.nowInputs.rndIn kk))

end Sys2Proof.Machine
end

