-- ==== Sys2Proof/Machine/Bulk.lean ====
section
/-! DEFINITION. BCD and bulk register transfer: `LD.BCD` (R150), `LD.STM` (R151), `LD.LDM` (R152). `I` is unchanged by all
three (decision D16). -/

namespace Sys2Proof.Machine

/-- `LD B, Vx` (R150): hundreds, tens, units at `I`, `I+1`, `I+2`. -/
def execLdBcd (x : Nibble) (s : State) : Host.Outcome State Fault Refusal :=
  .next (((s.memWrite (s.elemAddress 0) (bcdHundreds (s.reg x))).memWrite (s.elemAddress 1) (bcdTens (s.reg x))).memWrite
    (s.elemAddress 2) (bcdUnits (s.reg x)))

/-- Store `V[k]` at `I + k`. -/
def storeReg (s : State) (k : Nibble) : State := s.memWrite (s.elemAddress k.val) (s.reg k)

/-- Load `V[k]` from `I + k`. -/
def loadReg (s : State) (k : Nibble) : State :=
  (s.memRead (s.elemAddress k.val)).2.setReg k (s.memRead (s.elemAddress k.val)).1

/-- `LD [I], Vx` (R151): `V[0]..V[x]`, ascending. -/
def execLdStm (x : Nibble) (s : State) : Host.Outcome State Fault Refusal := .next ((nibblesUpTo x).foldl storeReg s)

/-- `LD Vx, [I]` (R152): `V[0]..V[x]`, ascending. -/
def execLdLdm (x : Nibble) (s : State) : Host.Outcome State Fault Refusal := .next ((nibblesUpTo x).foldl loadReg s)

end Sys2Proof.Machine
end

