-- ==== Sys2Proof/Machine/Control.lean ====
section
/-! DEFINITION. Control flow: `JP` (R81), `CALL` (R82), `RET` (R83), `JP.V0` (R121). -/

namespace Sys2Proof.Machine

/-- `JP nnn` (R81). -/
def execJp (nnn : Addr) (s : State) : Host.Outcome State Fault Refusal := .next (s.setPc (zextAddr nnn))

/-- `CALL nnn` (R82): push `PCnext` and jump; on a full stack a no-op that records `STKOVF` (decision D4). -/
def execCall (nnn : Addr) (s : State) : Host.Outcome State Fault Refusal :=
  .next (if h : s.sp.val < 16 then (s.push s.pc h).setPc (zextAddr nnn) else s.raise .stkovf)

/-- `RET` (R83): pop into `PC`; on an empty stack a no-op that records `STKUNF` (decision D4). -/
def execRet (s : State) : Host.Outcome State Fault Refusal :=
  .next (if h : 0 < s.sp.val then s.popPc h else s.raise .stkunf)

/-- `JP V0, nnn` (R121). The target is not masked to 12 bits. -/
def execJpV0 (nnn : Addr) (s : State) : Host.Outcome State Fault Refusal := .next (s.setPc (offsetTarget nnn (s.reg 0)))

end Sys2Proof.Machine
end

