-- ==== Sys2Proof/Machine/Display.lean ====
section
/-! DEFINITION. The framebuffer instructions `CLS` (R80) and `DRW` (R130 to R132). -/

namespace Sys2Proof.Machine

/-- `CLS` (R80). `VF` and `fb_changed` are untouched. -/
def execCls (s : State) : Host.Outcome State Fault Refusal := .next s.clearScreen

/-- XOR one lit sprite bit into the framebuffer, recording a collision (R130, innermost statements). -/
def drawPixel (row : Fin 32) (col : Fin 64) (s : State) : State :=
  (if s.pixel row col then s.setReg vF 1 else s).flipPixel row col

/-- Sprite column `col` of a row byte: bit 7 is column 0 (R131 item 1); a 0 bit does nothing. -/
def drawBit (b : Byte) (row : Fin 32) (x0 : Fin 64) (s : State) (col : Nat) : State :=
  if b.getLsbD (7 - col) then drawPixel row (x0 + Fin.ofNat 64 col) s else s

/-- The eight columns of one sprite row at framebuffer row `row`. -/
def drawByte (b : Byte) (row : Fin 32) (x0 : Fin 64) (s : State) : State :=
  (List.range 8).foldl (drawBit b row x0) s

/-- Sprite row `k`: read its byte at `I + k`, then draw it at framebuffer row `(y0 + k) mod 32`. -/
def drawRow (x0 : Fin 64) (y0 : Fin 32) (s : State) (k : Nat) : State :=
  drawByte (s.memRead (s.elemAddress k)).1 (y0 + Fin.ofNat 32 k) x0 (s.memRead (s.elemAddress k)).2

/-- The `n` rows of a sprite, top row first (R130). -/
def drawSprite (x0 : Fin 64) (y0 : Fin 32) (n : Nat) (s : State) : State :=
  (List.range n).foldl (drawRow x0 y0) s

/-- The output pulse `fb_changed` (R132). -/
def State.pulseFbChanged (s : State) : State := { s with fbChanged := true }

/-- `DRW Vx, Vy, n` (R130): the coordinates are latched before `VF` is cleared. -/
def execDrw (x y n : Nibble) (s : State) : Host.Outcome State Fault Refusal :=
  .next (drawSprite (startColumn (s.reg x)) (startRow (s.reg y)) n.val (s.setReg vF 0)).pulseFbChanged

end Sys2Proof.Machine
end

