-- ==== Sys2Proof/Machine/Index.lean ====
section
/-! DEFINITION. The index register: `LD.I` (R120), `LD.F` (R122), `ADD.I` (R123). -/

namespace Sys2Proof.Machine

/-- `LD I, nnn` (R120). -/
def execLdI (nnn : Addr) (s : State) : Host.Outcome State Fault Refusal := .next (s.setI (zextAddr nnn))

/-- `LD F, Vx` (R122): the whole byte is multiplied (decision D27). -/
def execLdF (x : Nibble) (s : State) : Host.Outcome State Fault Refusal := .next (s.setI (glyphAddress (s.reg x)))

/-- `ADD.I` for either value of `IDX_CARRY_LIMIT` (R123): the flag first, then the sum. -/
def addIndex (limit : CarryLimit) (x : Nibble) (s : State) : State :=
  let t := s.setFlag (indexCarry limit s.i (s.reg x))
  t.setI (t.i + (t.reg x).setWidth 16)

/-- `ADD I, Vx` (R123) with the parameter's value of Machine/Parameters.lean (log entry 2). -/
def execAddI (x : Nibble) (s : State) : Host.Outcome State Fault Refusal := .next (addIndex idxCarryLimit x s)

end Sys2Proof.Machine
end

