-- ==== Sys2Proof/Machine/Input.lean ====
section
/-! DEFINITION. The key wait `LD.K` (R142) and the timer instructions `LD.GDT` (R143), `LD.SDT` (R144), `LD.ST` (R145). -/

namespace Sys2Proof.Machine

/-- `LD Vx, K` (R142): with no key held, `PC` goes back to the instruction's own address; otherwise the least held key
is stored. -/
def execLdK (x : Nibble) (s : State) : Host.Outcome State Fault Refusal :=
  .next (match s.firstKey with
    | none => s.setPc (s.pc - 2)
    | some k => s.setReg x (BitVec.ofNat 8 k.val))

/-- `LD Vx, DT` (R143): `DT` before this step's timer phase. -/
def execLdGdt (x : Nibble) (s : State) : Host.Outcome State Fault Refusal := .next (s.setReg x s.dt)

/-- `LD DT, Vx` (R144). -/
def execLdSdt (x : Nibble) (s : State) : Host.Outcome State Fault Refusal := .next (s.setDt (s.reg x))

/-- `LD ST, Vx` (R145). -/
def execLdSt (x : Nibble) (s : State) : Host.Outcome State Fault Refusal := .next (s.setSt (s.reg x))

end Sys2Proof.Machine
end

