-- ==== Sys2Proof/Machine/Skip.lean ====
section
/-! DEFINITION. The conditional skips: `SE.B` (R90), `SNE.B` (R91), `SE.R` (R92), `SNE.R` (R93), `SKP` (R140),
`SKNP` (R141). -/

namespace Sys2Proof.Machine

/-- `SE Vx, kk` (R90). -/
def execSeB (x : Nibble) (kk : Byte) (s : State) : Host.Outcome State Fault Refusal := .next (s.skipIf (s.reg x == kk))

/-- `SNE Vx, kk` (R91). -/
def execSneB (x : Nibble) (kk : Byte) (s : State) : Host.Outcome State Fault Refusal := .next (s.skipIf (s.reg x != kk))

/-- `SE Vx, Vy` (R92). -/
def execSeR (x y : Nibble) (s : State) : Host.Outcome State Fault Refusal := .next (s.skipIf (s.reg x == s.reg y))

/-- `SNE Vx, Vy` (R93). -/
def execSneR (x y : Nibble) (s : State) : Host.Outcome State Fault Refusal := .next (s.skipIf (s.reg x != s.reg y))

/-- `SKP Vx` (R140). -/
def execSkp (x : Nibble) (s : State) : Host.Outcome State Fault Refusal :=
  .next ((s.checkKey (s.reg x)).skipIf (s.keyHeld (s.reg x)))

/-- `SKNP Vx` (R141). -/
def execSknp (x : Nibble) (s : State) : Host.Outcome State Fault Refusal :=
  .next ((s.checkKey (s.reg x)).skipIf (!s.keyHeld (s.reg x)))

end Sys2Proof.Machine
end

