-- ==== Sys2Proof/Machine/Dispatch.lean ====
section
/-! DEFINITION. Phase 2 of the step (R27): one arm per instruction, each one call of its meaning. -/

namespace Sys2Proof.Machine

/-- The effect of an instruction on a state whose `PC` is already `PCnext` (R13, R27). -/
def exec (i : Instr) (s : State) : Host.Outcome State Fault Refusal :=
  match i with
  | .cls => Sys2Proof.Machine.execCls s
  | .ret => Sys2Proof.Machine.execRet s
  | .jp nnn => Sys2Proof.Machine.execJp nnn s
  | .call nnn => Sys2Proof.Machine.execCall nnn s
  | .seB x kk => Sys2Proof.Machine.execSeB x kk s
  | .sneB x kk => Sys2Proof.Machine.execSneB x kk s
  | .seR x y => Sys2Proof.Machine.execSeR x y s
  | .ldB x kk => Sys2Proof.Machine.execLdB x kk s
  | .addB x kk => Sys2Proof.Machine.execAddB x kk s
  | .ldR x y => Sys2Proof.Machine.execLdR x y s
  | .orR x y => Sys2Proof.Machine.execOr x y s
  | .andR x y => Sys2Proof.Machine.execAnd x y s
  | .xorR x y => Sys2Proof.Machine.execXor x y s
  | .addR x y => Sys2Proof.Machine.execAddR x y s
  | .sub x y => Sys2Proof.Machine.execSub x y s
  | .shr x y => Sys2Proof.Machine.execShr x y s
  | .subn x y => Sys2Proof.Machine.execSubn x y s
  | .shl x y => Sys2Proof.Machine.execShl x y s
  | .sneR x y => Sys2Proof.Machine.execSneR x y s
  | .ldI nnn => Sys2Proof.Machine.execLdI nnn s
  | .jpV0 nnn => Sys2Proof.Machine.execJpV0 nnn s
  | .rnd x kk => Sys2Proof.Machine.execRnd x kk s
  | .drw x y n => Sys2Proof.Machine.execDrw x y n s
  | .skp x => Sys2Proof.Machine.execSkp x s
  | .sknp x => Sys2Proof.Machine.execSknp x s
  | .ldGdt x => Sys2Proof.Machine.execLdGdt x s
  | .ldK x => Sys2Proof.Machine.execLdK x s
  | .ldSdt x => Sys2Proof.Machine.execLdSdt x s
  | .ldSt x => Sys2Proof.Machine.execLdSt x s
  | .addI x => Sys2Proof.Machine.execAddI x s
  | .ldF x => Sys2Proof.Machine.execLdF x s
  | .ldBcd x => Sys2Proof.Machine.execLdBcd x s
  | .ldStm x => Sys2Proof.Machine.execLdStm x s
  | .ldLdm x => Sys2Proof.Machine.execLdLdm x s

end Sys2Proof.Machine
end

