-- ==== Sys2Proof/Machine/Sequencer.lean ====
section
/-! DEFINITION. The phases of a step (R27): what precedes the fetch, fetch, decode and execute, timer, and what follows;
and where the host's `withFetchWord` puts an instruction. -/

namespace Sys2Proof.Machine

/-- A tick that arrived since the previous step's timer phase is latched (R8, R168), and the output pulse of the
previous step is over (R29). -/
def beginStep (s : State) : State := { s with tickP := s.tickP || s.nowInputs.tick, fbChanged := false }

/-- The word of the two bytes at `PC` and `PC + 1` (R43, R48). -/
def fetchWord (s : State) : Word := joinBytes (s.readByte s.pc) (s.readByte (s.pc + 1))

/-- Phase 1 (R27, R48): read the two bytes, each checked by itself, assemble `IR`, advance `PC` by 2. -/
def fetch (s : State) : State :=
  let t := (s.memRead s.pc).2
  let u := (t.memRead (s.pc + 1)).2
  { u with ir := joinBytes (s.memRead s.pc).1 (t.memRead (s.pc + 1)).1, pc := s.pc + 2 }

/-- Phase 2 (R27): the row that `IR` matches, or the counted no-op of R65. -/
def execute (s : State) : Host.Outcome State Fault Refusal :=
  match decodeWord s.ir with
  | .ok i => exec i s
  | .error _ => .next (unrecognised s)

/-- A timer stops at 0 (R169). -/
def countDown (b : Byte) : Byte := if b = 0 then 0 else b - 1

/-- Phase 3 (R169). -/
def timerPhase (s : State) : State :=
  if s.tickP then { s with dt := countDown s.dt, st := countDown s.st, tickP := false } else s

/-- The step is done: its inputs are used up (log entry 4). -/
def endStep (s : State) : State := { s with inputs := s.inputs.tail, clock := s.clock + 1 }

/-- The three phases in their order (R27). -/
def threePhases (s : State) : Host.Outcome State Fault Refusal :=
  match execute (fetch (beginStep s)) with
  | .next t => .next (endStep (timerPhase t))
  | .fault r => .fault r
  | .refused r => .refused r

/-- A step request: ignored while `MODE = LOAD`, one step while `MODE = RUN` (R24, R27). -/
def stepRequest (s : State) : Host.Outcome State Fault Refusal :=
  match s.mode with
  | .load => .next s
  | .run => threePhases s

/-- Put an instruction's two bytes where the next fetch reads them, and start the machine (R31, R192, R194;
log entry 7). -/
def placeInstruction (s : State) (w : Word) : State :=
  { s with
    mem := Memory.write (Memory.write s.mem (cellOf s.pc) (highByte w)) (cellOf (s.pc + 1)) (lowByte w)
    mode := .run }

end Sys2Proof.Machine
end

