-- ==== Sys2Proof/Machine/Step.lean ====
section
/-! DEFINITION. One step of CORE (R27), and the host's way of placing one instruction. -/

namespace Sys2Proof.Machine

/-- One step request (R24, R27). -/
def step (s : State) : Host.Outcome State Fault Refusal := stepRequest s

/-- The state with the low 16 of `nbits` bits of `w` standing where `step` fetches next, and the machine running. -/
def State.withFetchWord (s : State) (nbits w : Nat) : State := placeInstruction s (BitVec.ofNat 16 (w % 2 ^ nbits))

end Sys2Proof.Machine
end

