-- ==== Sys2Proof/WellFormed.lean ====
section
/-! DEFINITION. The checks a term must pass before the rules speak about it.
An instruction needs none: every operand of `Instr` has exactly the values of its field (R62: "`x` and `y` always denote
registers", "register indices used by any instruction are always in `0..15`"), so no ill-formed instruction can be
written down. The check that remains is the loader's on a program image (R193). -/

namespace Sys2Proof

/-- The premise of every run (R31, R193): the image fits in `0x200..0xFFF`. -/
def programFits (p : List Byte) : Bool := decide (p.length ≤ Config.progMax)

end Sys2Proof
end

