-- ==== Sys2Proof/Machine/Ports.lean ====
section
/-! DEFINITION. The other agents of R7 and the ports of R8: reset, the load port, start, the tick, a step with given inputs,
the loader, and what the host can read. Each is an operation on the state between two steps. -/

namespace Sys2Proof.Machine

/-- `rst` (R190): every piece of state of CORE at its reset value. What belongs to the host (the scheduled inputs, the
count that numbers the free ones) is not CORE's and stays. -/
def hostReset (s : State) : State := { State.reset with inputs := s.inputs, clock := s.clock }

/-- One write on the load port (R54, R192): live only while `MODE = LOAD`, accepted only at `0x200..0xFFF`. -/
def loadWrite (a : Addr) (b : Byte) (s : State) : State :=
  match s.mode with
  | .load => if Config.progBase ≤ a.toNat then { s with mem := Memory.write s.mem a.toNat b } else s
  | .run => s

/-- The input `start` (R194): `MODE <- RUN`. -/
def start (s : State) : State := { s with mode := .run }

/-- `TickArrive` (R168): `TICKP <- 1`, in either mode. -/
def tickArrive (s : State) : State := { s with tickP := true }

/-- A step with the given inputs: the `step : State -> Inputs -> State` of R8. DESIGN CHOICE (log entry 14): inputs given with a request
that `MODE = LOAD` ignores stay at the head of the schedule. -/
def stepWith (inp : StepInputs) (s : State) : Host.Outcome State Fault Refusal := step { s with inputs := inp :: s.inputs }

/-- What the host can do between two steps (R7, R8). -/
inductive HostEvent where
  | reset
  | loadWrite (a : Addr) (b : Byte)
  | start
  | tickArrive
deriving DecidableEq, Repr

/-- The effect of a host event. -/
def HostEvent.apply : HostEvent → State → State
  | .reset, s => hostReset s
  | .loadWrite a b, s => Machine.loadWrite a b s
  | .start, s => Machine.start s
  | .tickArrive, s => Machine.tickArrive s

/-- Why the loader reports an error (R193). -/
inductive LoadError where
  /-- The program is longer than `PROG_MAX`. -/
  | tooLarge
deriving DecidableEq, Repr

/-- Write the bytes one after another through the load port, from `ld_addr = a` on (R192). -/
def loadBytes : Nat → List Byte → State → State
  | _, [], s => s
  | a, b :: p, s => loadBytes (a + 1) p (loadWrite (BitVec.ofNat 12 a) b s)

/-- The loader (R192, R193): an oversize program is rejected whole before any byte is written. -/
def loadProgram (p : List Byte) (s : State) : Except LoadError State :=
  if programFits p then .ok (loadBytes Config.progBase p s) else .error .tooLarge

/-- Reset, load, start (R31, R195): the state at the first step of a run of `p`. -/
def launch (p : List Byte) (s : State) : Except LoadError State :=
  match loadProgram p (hostReset s) with
  | .ok t => .ok (start t)
  | .error e => .error e

/-! ### What the host reads (R8, R29, R55, R170) -/

/-- `tone`: the level `ST != 0`. -/
def State.tone (s : State) : Bool := s.st != 0

/-- `fb_data` for `fb_addr = row*64 + col`: `0x00` or `0x01`. -/
def State.fbData (s : State) (a : BitVec 11) : Byte :=
  if s.pixel (Fin.ofNat 32 (a.toNat / 64)) (Fin.ofNat 64 a.toNat) then 0x01 else 0x00

end Sys2Proof.Machine
end

