-- ==== Sys2Proof/Safety.lean ====
section
/-! DEFINITION. What counts as a safe run, and the notions claims are stated with: no fault recorded (R22, R163), the
invariant, reachable states, a program at rest (R196). -/

namespace Sys2Proof.Machine

/-- No fault has been recorded: the premise R22 and R163 ask of every claim about a program. -/
def State.noFaultRecorded (s : State) : Prop := s.err = 0

/-- The invariant of CORE: memory is in its canonical form, and the sticky bit `UNDEF` is set exactly when unrecognised
instructions have been counted (R65 sets both, reset alone clears them; R22, R23). -/
structure State.Inv (s : State) : Prop where
  memWf : Memory.wf s.mem
  undefCounted : s.recorded .undef = (s.ucnt != 0)

/-- The states that steps and host events lead to from reset (R7, R26). -/
inductive Reachable : State → Prop where
  | reset : Reachable State.reset
  | step (s t : State) : Reachable s → Machine.step s = .next t → Reachable t
  | stepWith (inp : StepInputs) (s t : State) : Reachable s → Machine.stepWith inp s = .next t → Reachable t
  | event (e : HostEvent) (s : State) : Reachable s → Reachable (e.apply s)

/-- The program has come to rest at `A` (R196): `PC = A <= 0xFFE` and `JP A` stands at `A`. -/
structure State.atRest (s : State) (a : Word) : Prop where
  running : s.mode = .run
  here : s.pc = a
  inRange : a.toNat ≤ 0xFFE
  high : Memory.read s.mem a.toNat = BitVec.ofNat 8 (0x10 + a.toNat / 256)
  low : Memory.read s.mem (a.toNat + 1) = BitVec.ofNat 8 (a.toNat % 256)

/-- The sprite of R130 as a picture: whether the `n` rows of bytes at `I` put a set bit on framebuffer cell `(row, col)`
when drawn at `(x0, y0)`, each axis wrapping (R131 items 1 to 3). -/
def spriteBit (s : State) (x0 : Fin 64) (y0 : Fin 32) (n : Nat) (row : Fin 32) (col : Fin 64) : Bool :=
  decide ((row - y0).val < n) && (decide ((col - x0).val < 8) &&
    (s.readByte (s.elemAddress (row - y0).val)).getLsbD (7 - (col - x0).val))

end Sys2Proof.Machine
end

