-- ==== Sys2Proof/Certificates/Slice0/Obligations.lean ====
section
/-! DEFINITION. The statements about CORE that the provers are given, in the order of OBLIGATIONS.json. A statement about an
instruction speaks of `exec`, on a state whose `PC` is already `PCnext` (R13, R27); `StepRunsTheDecodedInstruction` carries it to
`step`. `t = { s with v := t.v }` says that `t` differs from `s` in the register file at most, and likewise for other fields. -/

namespace Sys2Proof.Claims

open Sys2Proof.Machine

/-- Every word that matches `pat` under `mask` decodes to `f` of it (R63, R64). -/
def Decodes (pat mask : Word) (f : Word → Instr) : Prop := ∀ w : Word, w &&& mask = pat → decodeWord w = .ok (f w)

/-- The instructions that write `VF` as a side effect (R11). -/
def writesFlag : Instr → Bool
  | .addR _ _ | .sub _ _ | .subn _ _ | .shr _ _ | .shl _ _ | .addI _ | .drw _ _ _ => true
  | _ => false

/-- The registers an instruction has as destination. -/
def isDestination : Instr → Nibble → Bool
  | .ldB x _, r | .addB x _, r | .ldR x _, r | .orR x _, r | .andR x _, r | .xorR x _, r | .addR x _, r | .sub x _, r
  | .shr x _, r | .subn x _, r | .shl x _, r | .rnd x _, r | .ldGdt x, r | .ldK x, r => decide (r = x)
  | .ldLdm x, r => decide (r ≤ x)
  | _, _ => false

/-- The table of R161: the condition holds when the instruction is executed in the state. -/
def conditionHolds (i : Instr) (s : State) (c : ErrCond) : Prop :=
  match i, c with
  | .call _, .stkovf => s.sp.val = 16
  | .ret, .stkunf => s.sp.val = 0
  | .skp x, .key => 15 < (s.reg x).toNat
  | .sknp x, .key => 15 < (s.reg x).toNat
  | .drw _ _ n, .addr => ∃ k, k < n.val ∧ 0x0FFF < (s.i + BitVec.ofNat 16 k).toNat
  | .ldBcd _, .addr => ∃ k, k < 3 ∧ 0x0FFF < (s.i + BitVec.ofNat 16 k).toNat
  | .ldStm x, .addr => ∃ k, k ≤ x.val ∧ 0x0FFF < (s.i + BitVec.ofNat 16 k).toNat
  | .ldLdm x, .addr => ∃ k, k ≤ x.val ∧ 0x0FFF < (s.i + BitVec.ofNat 16 k).toNat
  | _, _ => False

/-- The key a value names is held (R146). -/
def held (s : State) (b : Byte) : Bool := s.nowInputs.keyIn.getLsbD (b.toNat % 16)

/-- The class table of R13: `PC` after execution, `PC` before being `PCnext`. -/
def pcAfter (i : Instr) (s : State) : Word :=
  match i with
  | .jp nnn => nnn.setWidth 16
  | .jpV0 nnn => nnn.setWidth 16 + (s.reg 0).setWidth 16
  | .call nnn => if s.sp.val = 16 then s.pc else nnn.setWidth 16
  | .ret => if s.sp.val = 0 then s.pc else (s.stack[s.sp.val - 1]?).getD 0
  | .seB x kk => if s.reg x = kk then s.pc + 2 else s.pc
  | .sneB x kk => if s.reg x = kk then s.pc else s.pc + 2
  | .seR x y => if s.reg x = s.reg y then s.pc + 2 else s.pc
  | .sneR x y => if s.reg x = s.reg y then s.pc else s.pc + 2
  | .skp x => if held s (s.reg x) = true then s.pc + 2 else s.pc
  | .sknp x => if held s (s.reg x) = true then s.pc else s.pc + 2
  | .ldK _ => if s.nowInputs.keyIn = 0 then s.pc - 2 else s.pc
  | _ => s.pc

/-- What the address `a` reads as once `n` bytes have been stored at `I`, `I+1`, … of `s`: the stored byte where the cell is one of
theirs, the old byte anywhere else. -/
def ReadsAsStored (s : State) (n : Nat) (stored : Nat → Byte) (a : Word) (b : Byte) : Prop :=
  (∀ k, k < n → cellOf a = cellOf (s.i + BitVec.ofNat 16 k) → b = stored k) ∧
  ((∀ k, k < n → cellOf a ≠ cellOf (s.i + BitVec.ofNat 16 k)) → b = Memory.read s.mem (cellOf a))

/-- The font of R42, as the table prints it. -/
def customaryFont : List Byte :=
  [0xF0, 0x90, 0x90, 0x90, 0xF0] ++ [0x20, 0x60, 0x20, 0x20, 0x70] ++ [0xF0, 0x10, 0xF0, 0x80, 0xF0] ++
  [0xF0, 0x10, 0xF0, 0x10, 0xF0] ++ [0x90, 0x90, 0xF0, 0x10, 0x10] ++ [0xF0, 0x80, 0xF0, 0x10, 0xF0] ++
  [0xF0, 0x80, 0xF0, 0x90, 0xF0] ++ [0xF0, 0x10, 0x20, 0x40, 0x40] ++ [0xF0, 0x90, 0xF0, 0x90, 0xF0] ++
  [0xF0, 0x90, 0xF0, 0x10, 0xF0] ++ [0xF0, 0x90, 0xF0, 0x90, 0x90] ++ [0xE0, 0x90, 0xE0, 0x90, 0xE0] ++
  [0xF0, 0x80, 0x80, 0x80, 0xF0] ++ [0xE0, 0x90, 0x90, 0x90, 0xE0] ++ [0xF0, 0x80, 0xF0, 0x80, 0xF0] ++
  [0xF0, 0x80, 0xF0, 0x80, 0x80]

end Sys2Proof.Claims

open Sys2Proof Sys2Proof.Machine Sys2Proof.Claims

/-! ### Reset and the invariant -/

/-- The reset table of R30. The font bytes are the spec's default (log entry 1); the rows the spec marks (D3), (D20), (D23), (D24),
(D33) are its own decisions. -/
def Obligations.ResetLeavesTheTableOfValues : Prop :=
  (∀ x, State.reset.reg x = 0x00) ∧ State.reset.i = 0x0000 ∧ State.reset.pc = 0x0200 ∧ State.reset.ir = 0x0000 ∧
  (∀ k : Fin 16, State.reset.stack[k] = 0x0000) ∧ State.reset.sp.val = 0 ∧ State.reset.dt = 0x00 ∧ State.reset.st = 0x00 ∧
  (∀ row col, State.reset.pixel row col = false) ∧
  (List.range 80).map (Memory.read State.reset.mem) = customaryFont ∧
  (∀ a, 80 ≤ a → Memory.read State.reset.mem a = 0x00) ∧
  State.reset.tickP = false ∧ State.reset.err = 0 ∧ State.reset.ucnt = 0x0000 ∧ State.reset.mode = .load ∧
  State.reset.tone = false

/-- The invariant holds at reset. -/
def Obligations.ResetMeetsTheInvariant : Prop := State.reset.Inv

/-- Every step keeps the invariant: memory stays canonical, and `ERR.UNDEF` is set exactly when `UCNT` is not zero (R22, R23, R65). -/
def Obligations.EveryStepKeepsTheInvariant : Prop := ∀ s t : State, s.Inv → Machine.step s = .next t → t.Inv

/-- Every state that steps, with whatever inputs, and host events lead to from reset meets the invariant. -/
def Obligations.EveryReachableStateMeetsTheInvariant : Prop := ∀ s : State, Reachable s → s.Inv

/-! ### Encoding -/

/-- Decode after encode is the identity, on words and on byte lists, for every instruction and every operand. The encodings are the spec's
decision D1 (log entry 8). -/
def Obligations.DecodeOfEncodeIsTheInstruction : Prop :=
  ∀ (i : Instr) (rest : List Byte), decodeWord (encode i) = .ok i ∧ decode (encodeBytes i ++ rest) = .ok (i, rest)

/-- Encode after decode is the identity: each recognised word has one meaning and no bit of it is dropped. The encodings are the spec's
decision D1 (log entry 8). -/
def Obligations.EncodeOfDecodeIsTheWord : Prop := ∀ (w : Word) (i : Instr), decodeWord w = .ok i → encode i = w

/-- The decoder follows the opcode map (R63, R64): a word that decodes selects exactly one row, its instruction's; a word that does not
selects none. The bit patterns are the spec's decision D1 (log entry 8), and that every fixed bit must match is D2. -/
def Obligations.DecodeFollowsTheOpcodeTable : Prop :=
  ∀ w : Word,
    (∀ i, decodeWord w = .ok i → (opcodeTable.filter (fun r => r.selectedBy w)).map (fun r => r.mnemonic) = [i.mnemonic]) ∧
    (∀ e, decodeWord w = .error e → opcodeTable.filter (fun r => r.selectedBy w) = [])

/-- The unrecognised patterns are exactly the rows of R65's table, each rejected under its own name (the table is marked derived). -/
def Obligations.RejectedPatternsAreTheSixOfTheTable : Prop :=
  ∀ (w : Word) (e : Reject), decodeWord w = .error e ↔
    match e with
    | .machineRoutine => w.toNat / 4096 = 0 ∧ w.toNat ≠ 0x00E0 ∧ w.toNat ≠ 0x00EE
    | .skipEqualTail => w.toNat / 4096 = 5 ∧ w.toNat % 16 ≠ 0
    | .arithmeticTail => w.toNat / 4096 = 8 ∧ w.toNat % 16 ∈ [0x8, 0x9, 0xA, 0xB, 0xC, 0xD, 0xF]
    | .skipNotEqualTail => w.toNat / 4096 = 9 ∧ w.toNat % 16 ≠ 0
    | .keyTail => w.toNat / 4096 = 0xE ∧ w.toNat % 256 ∉ [0x9E, 0xA1]
    | .miscTail => w.toNat / 4096 = 0xF ∧ w.toNat % 256 ∉ [0x07, 0x0A, 0x15, 0x18, 0x1E, 0x29, 0x33, 0x55, 0x65]
    | .truncated => False

/-- Words written out from R64's patterns decode to the instructions they stand for, and the fields are the slices of R62. Patterns and
fields are the spec's decision D1 (log entry 8). -/
def Obligations.SampleWordsDecodeAndFieldsAreSlices : Prop :=
  decode [0x00, 0xE0] = .ok (.cls, []) ∧ decode [0x22, 0x0A] = .ok (.call 0x20A, []) ∧
  decode [0x4A, 0x07] = .ok (.sneB 0xA 0x07, []) ∧ decode [0x84, 0x16] = .ok (.shr 0x4 0x1, []) ∧
  decode [0xB3, 0x00] = .ok (.jpV0 0x300, []) ∧ decode [0xC3, 0x0F] = .ok (.rnd 0x3 0x0F, []) ∧
  decode [0xD1, 0x25] = .ok (.drw 0x1 0x2 0x5, []) ∧ decode [0xE5, 0xA1] = .ok (.sknp 0x5, []) ∧
  decode [0xF2, 0x1E] = .ok (.addI 0x2, []) ∧ decode [0xF2, 0x55] = .ok (.ldStm 0x2, []) ∧
  decode [0x50, 0x11] = .error .skipEqualTail ∧ decode [0x12] = .error .truncated ∧
  ∀ w : Word, (fieldX w).val = w.toNat / 256 % 16 ∧ (fieldY w).val = w.toNat / 16 % 16 ∧ (fieldN w).val = w.toNat % 16 ∧
    (fieldKK w).toNat = w.toNat % 256 ∧ (fieldNNN w).toNat = w.toNat % 4096

/-! ### The step -/

/-- When the bytes at `PC` decode to `i`, a step is: fetch, `exec i`, timer phase (R27; that the timer phase comes last is the spec's
decision D20). What stands around these is the model's choice: the tick is latched before the fetch (log entry 13), the pulse field is
cleared (log entry 6), and at the end the inputs are used up and the step count rises (log entry 4). -/
def Obligations.StepRunsTheDecodedInstruction : Prop :=
  ∀ (s : State) (i : Instr), s.mode = .run → decode [s.readByte s.pc, s.readByte (s.pc + 1)] = .ok (i, []) →
    Machine.step s =
      (match exec i (fetch { s with tickP := s.tickP || s.nowInputs.tick, fbChanged := false }) with
      | .next t => .next { timerPhase t with inputs := (timerPhase t).inputs.tail, clock := (timerPhase t).clock + 1 }
      | .fault r => .fault r
      | .refused r => .refused r)

/-- R43: the byte at the lower address supplies `IR[15:8]`, the byte at the higher address `IR[7:0]`, always. -/
def Obligations.FetchIsBigEndian : Prop :=
  ∀ s : State, (fetch s).ir.extractLsb' 8 8 = s.readByte s.pc ∧ (fetch s).ir.extractLsb' 0 8 = s.readByte (s.pc + 1)

/-- The fetch (R48 with R47): two cells read, `PC` advanced by 2 modulo 65536, `ADDR` recorded exactly when one of the two addresses
lies above `0x0FFF` (the spec's decision D6), nothing else changed. -/
def Obligations.FetchReadsTwoCellsAndAdvances : Prop :=
  ∀ s : State,
    fetch s = { s with ir := (fetch s).ir, pc := (fetch s).pc, err := (fetch s).err } ∧
    (fetch s).ir.toNat =
      (Memory.read s.mem (s.pc.toNat % 4096)).toNat * 256 + (Memory.read s.mem ((s.pc.toNat + 1) % 65536 % 4096)).toNat ∧
    (fetch s).pc.toNat = (s.pc.toNat + 2) % 65536 ∧
    ∀ c, (fetch s).recorded c = true ↔
      s.recorded c = true ∨ (c = .addr ∧ (0x0FFF < s.pc.toNat ∨ 0x0FFF < (s.pc.toNat + 1) % 65536))

/-- An unrecognised word (R65, R66): the step completes; execution sets `ERR.UNDEF`, counts in `UCNT` up to `0xFFFF`, and changes nothing
else. The sticky bit and the counter are the spec's decision D3. `beginStep` and `endStep` stand for the model's own fields and the tick's
latching (log entries 4, 6, 13). -/
def Obligations.UnrecognisedWordIsACountedNoOp : Prop :=
  ∀ (s : State) (e : Reject), s.mode = .run → decode [s.readByte s.pc, s.readByte (s.pc + 1)] = .error e →
    ∃ u, Machine.step s = .next (endStep (timerPhase u)) ∧
      u = { fetch (beginStep s) with err := u.err, ucnt := u.ucnt } ∧
      u.ucnt.toNat = min (s.ucnt.toNat + 1) 0xFFFF ∧
      ∀ c, u.recorded c = true ↔ (fetch (beginStep s)).recorded c = true ∨ c = .undef

/-- Every step completes (R28): it answers a next state, and while running it leaves the machine running; no state stops the sequencer.
While loading, the step that completes is the ignored request of R24. That the step count rises by one and one entry of the inputs is
used up is the model's choice about its own fields (log entry 4). -/
def Obligations.EveryStepCompletes : Prop :=
  ∀ s : State, ∃ t, Machine.step s = .next t ∧
    (s.mode = .run → t.mode = .run ∧ t.clock = s.clock + 1 ∧ t.inputs = s.inputs.tail)

/-- `ERR` bits never go from 1 to 0 and `UCNT` never decreases, in every step and under every host event but reset, which clears both
(R22, R23, R26). -/
def Obligations.ErrorsAreStickyAndTheCountNeverFalls : Prop :=
  (∀ s t : State, Machine.step s = .next t →
    (∀ c, s.recorded c = true → t.recorded c = true) ∧ s.ucnt.toNat ≤ t.ucnt.toNat) ∧
  (∀ (e : HostEvent) (s : State), e ≠ .reset → (e.apply s).err = s.err ∧ (e.apply s).ucnt = s.ucnt) ∧
  (∀ s : State, (HostEvent.reset.apply s).err = 0 ∧ (HostEvent.reset.apply s).ucnt = 0)

/-- Each instruction sets exactly the error bits of R161's table, exactly when the cause holds (the register and its fallbacks are the
spec's decision D33). -/
def Obligations.ErrorBitsFollowTheConditionTable : Prop :=
  ∀ (i : Instr) (s : State), ∃ t, exec i s = .next t ∧
    ∀ c, t.recorded c = true ↔ s.recorded c = true ∨ conditionHolds i s c

/-- The timer phase (R169): with a tick pending each timer that is not 0 is decremented once, a timer at 0 stays at 0, the latch is cleared and
nothing else changes; without one nothing changes. It ends every step, whatever was executed. Before it, in the same step, the fetch
changes no timer, and from there only `LD.SDT` changes `DT` and only `LD.ST` changes `ST` (R17): no other instruction and no unrecognised
word does. Outside a running step reset, which clears both timers, alone changes them. The place of the timer phase in the step is the
spec's decision D20; `beginStep` and `endStep` are the model's (log entries 4, 6, 13). -/
def Obligations.TimerPhaseCountsDownOncePerTick : Prop :=
  (∀ s : State, s.tickP = true →
    timerPhase s = { s with dt := (timerPhase s).dt, st := (timerPhase s).st, tickP := false } ∧
    (timerPhase s).dt.toNat = s.dt.toNat - 1 ∧ (timerPhase s).st.toNat = s.st.toNat - 1) ∧
  (∀ s : State, s.tickP = false → timerPhase s = s) ∧
  (∀ s t : State, s.mode = .run → Machine.step s = .next t →
    (fetch (beginStep s)).dt = s.dt ∧ (fetch (beginStep s)).st = s.st ∧
    ∃ u, execute (fetch (beginStep s)) = .next u ∧ t = endStep (timerPhase u) ∧
      ((∀ x, decode [s.readByte s.pc, s.readByte (s.pc + 1)] ≠ .ok (.ldSdt x, [])) → u.dt = s.dt) ∧
      ((∀ x, decode [s.readByte s.pc, s.readByte (s.pc + 1)] ≠ .ok (.ldSt x, [])) → u.st = s.st)) ∧
  (∀ s t : State, s.mode = .load → Machine.step s = .next t → t.dt = s.dt ∧ t.st = s.st) ∧
  (∀ (e : HostEvent) (s : State), e ≠ .reset → (e.apply s).dt = s.dt ∧ (e.apply s).st = s.st) ∧
  (∀ s : State, (HostEvent.reset.apply s).dt = 0x00 ∧ (HostEvent.reset.apply s).st = 0x00)

/-- The tick (R168, the spec's decision D20): `TickArrive` sets the latch alone, two of them before a step are one, a step consumes it, and a
tick given as an input is a `TickArrive` before the step (the model's choice, log entries 4 and 13). -/
def Obligations.TickIsLatchedNotCounted : Prop :=
  (∀ s : State, tickArrive s = { s with tickP := true } ∧ tickArrive (tickArrive s) = tickArrive s) ∧
  (∀ (s t : State), s.mode = .run → Machine.step s = .next t → t.tickP = false) ∧
  (∀ (s : State) (inp : StepInputs), s.mode = .run →
    stepWith { inp with tick := true } s = stepWith { inp with tick := false } (tickArrive s))

/-! ### Whole-machine frames -/

/-- A general register changes only as a destination, `VF` also as the flag of the seven flag writers (R10, R11; decision D10). -/
def Obligations.RegistersChangeOnlyAsDestinationOrFlag : Prop :=
  ∀ (i : Instr) (s : State) (r : Nibble), isDestination i r = false → (r = 0xF → writesFlag i = false) →
    ∃ t, exec i s = .next t ∧ t.reg r = s.reg r

/-- Only `LD.BCD` and `LD.STM` write memory (file 46): every other instruction leaves every cell as it was. -/
def Obligations.OnlyBcdAndBulkStoreWriteMemory : Prop :=
  ∀ (i : Instr) (s : State), (∀ x, i ≠ .ldBcd x) → (∀ x, i ≠ .ldStm x) →
    ∃ t, exec i s = .next t ∧ ∀ a, Memory.read t.mem a = Memory.read s.mem a

/-- The framebuffer is changed only by the clear-screen and draw instructions (R18), and `fb_changed` is pulsed by `DRW` alone (R29,
decision D22; the field is the model's, log entry 6). -/
def Obligations.OnlyClearAndDrawWriteTheScreen : Prop :=
  ∀ (i : Instr) (s : State), (∀ x y n, i ≠ .drw x y n) →
    ∃ t, exec i s = .next t ∧ t.fbChanged = s.fbChanged ∧ (i ≠ .cls → ∀ row col, t.pixel row col = s.pixel row col)

/-- Only `CALL` writes a slot, only `CALL` and `RET` move `SP` (R15, R16), and no other state than `SP`, the slot, `PC` and `ERR` is touched
by them. -/
def Obligations.OnlyCallAndReturnTouchTheStack : Prop :=
  ∀ (i : Instr) (s : State), ∃ t, exec i s = .next t ∧
    ((∀ nnn, i ≠ .call nnn) → t.stack = s.stack) ∧
    ((∀ nnn, i ≠ .call nnn) → i ≠ .ret → t.sp = s.sp) ∧
    ((∃ nnn, i = .call nnn) ∨ i = .ret → t = { s with stack := t.stack, sp := t.sp, pc := t.pc, err := t.err })

/-- `I`, `DT` and `ST` change only by their own writers; `IR`, `TICKP`, `UCNT`, `MODE`, the inputs and the step count by no instruction
(R12, R14, R17, R20, R24). The inputs and the step count are the model's own fields (log entry 4). -/
def Obligations.SystemRegistersHaveTheirOwnWriters : Prop :=
  ∀ (i : Instr) (s : State), ∃ t, exec i s = .next t ∧
    t.ir = s.ir ∧ t.tickP = s.tickP ∧ t.ucnt = s.ucnt ∧ t.mode = s.mode ∧ t.inputs = s.inputs ∧ t.clock = s.clock ∧
    ((∀ x, i ≠ .ldSdt x) → t.dt = s.dt) ∧ ((∀ x, i ≠ .ldSt x) → t.st = s.st) ∧
    ((∀ nnn, i ≠ .ldI nnn) → (∀ x, i ≠ .ldF x) → (∀ x, i ≠ .addI x) → t.i = s.i)

/-- The class table of R13: where `PC` stands after each instruction. The skip conditions are those of files 41 and 45: `SKP` and `SKNP`
test the key of the low 4 bits of `V[x]`, also above 15 (R146, decision D17; log entry 12), and `LD.K` goes on at the level of `key_in`
(R142, decision D18). A full and an empty stack leave `PC` (decision D4), and sums wrap (decision D7). -/
def Obligations.PcFollowsTheClassTable : Prop :=
  ∀ (i : Instr) (s : State), ∃ t, exec i s = .next t ∧ t.pc = pcAfter i s

/-! ### Memory, loading, rest -/

/-- The memory primitives (R47, R50): a read returns the latest write to its cell and changes nothing but `ERR.ADDR`; a write changes
that one cell and nothing but `ERR.ADDR` beside it; an address above `0x0FFF` selects the cell of its low 12 bits (decision D6). -/
def Obligations.MemoryReadReturnsTheLatestWrite : Prop :=
  ∀ (s : State) (a : Word) (b : Byte),
    (s.memRead a).1 = Memory.read s.mem (a.toNat % 4096) ∧
    (s.memRead a).2 = { s with err := (s.memRead a).2.err } ∧
    (∀ c, (s.memRead a).2.recorded c = true ↔ s.recorded c = true ∨ (c = .addr ∧ 0x0FFF < a.toNat)) ∧
    s.memWrite a b = { s with mem := (s.memWrite a b).mem, err := (s.memRead a).2.err } ∧
    (∀ k, Memory.read (s.memWrite a b).mem k = if k = a.toNat % 4096 then b else Memory.read s.mem k)

/-- Self-modifying code (R52): after `LD.STM` or `LD.BCD`, a fetch from any address assembles the stored bytes where its two cells are
cells of the store and the old bytes where they are not, so also one of each. Which cell an address above `0x0FFF` has is the spec's
decision D6, and that the store leaves `I` is D16. -/
def Obligations.StoresAreSeenByTheNextFetch : Prop :=
  ∀ (s : State) (x : Nibble),
    (∃ t, exec (.ldStm x) s = .next t ∧ ∀ p : Word,
      ReadsAsStored s (x.val + 1) (fun k => s.reg (Fin.ofNat 16 k)) p ((fetch { t with pc := p }).ir.extractLsb' 8 8) ∧
      ReadsAsStored s (x.val + 1) (fun k => s.reg (Fin.ofNat 16 k)) (p + 1) ((fetch { t with pc := p }).ir.extractLsb' 0 8)) ∧
    (∃ t, exec (.ldBcd x) s = .next t ∧ ∀ p : Word,
      ReadsAsStored s 3 (fun k => BitVec.ofNat 8 ((s.reg x).toNat / 10 ^ (2 - k) % 10)) p
        ((fetch { t with pc := p }).ir.extractLsb' 8 8) ∧
      ReadsAsStored s 3 (fun k => BitVec.ofNat 8 ((s.reg x).toNat / 10 ^ (2 - k) % 10)) (p + 1)
        ((fetch { t with pc := p }).ir.extractLsb' 0 8))

/-- The loader (R192, R193): a program of at most `0xE00` bytes is placed byte for byte at `0x200` and every other cell and all other state
stay; a longer one is rejected whole (the mechanism is the spec's decision D24). -/
def Obligations.LoaderPlacesOrRejectsTheProgram : Prop :=
  ∀ (p : List Byte) (s : State),
    (p.length ≤ 0xE00 → s.mode = .load →
      ∃ t, loadProgram p s = .ok t ∧ t = { s with mem := t.mem } ∧
        (∀ (k : Nat) (h : k < p.length), Memory.read t.mem (0x200 + k) = p[k]) ∧
        (∀ a, a < 0x200 ∨ 0x200 + p.length ≤ a → Memory.read t.mem a = Memory.read s.mem a)) ∧
    (0xE00 < p.length → loadProgram p s = .error .tooLarge)

/-- While loading, step requests are ignored and the load port accepts `0x200..0xFFF` only; while running, the load port is dead; `start`
changes `MODE` alone (R24, R54, R194; decision D24). That the ignored request also leaves the inputs given with it unused and a tick among
them unlatched is the model's choice, on which the spec is silent (log entry 14, DESIGN CHOICE), and so is that it leaves the field for the
output pulse (log entry 6). -/
def Obligations.LoadPortAndStepRequestsAreGuardedByMode : Prop :=
  ∀ (s : State) (a : Addr) (b : Byte),
    (s.mode = .load → Machine.step s = .next s) ∧
    (s.mode = .run → loadWrite a b s = s) ∧
    (a.toNat < 0x200 → loadWrite a b s = s) ∧
    (s.mode = .load → 0x200 ≤ a.toNat →
      loadWrite a b s = { s with mem := (loadWrite a b s).mem } ∧
      ∀ k, Memory.read (loadWrite a b s).mem k = if k = a.toNat then b else Memory.read s.mem k) ∧
    start s = { s with mode := .run }

/-- The state at the first step of a run (R31): the reset state with the program at `0x200`, running; no other state of CORE differs. The
model's own fields for the scheduled inputs and the step count belong to the host and are kept through the reset (log entry 10). -/
def Obligations.LaunchStateIsResetPlusTheProgram : Prop :=
  ∀ (p : List Byte) (s : State), p.length ≤ 0xE00 →
    ∃ t, launch p s = .ok t ∧
      t = { State.reset with mem := t.mem, mode := .run, inputs := s.inputs, clock := s.clock } ∧
      (∀ (k : Nat) (h : k < p.length), Memory.read t.mem (0x200 + k) = p[k]) ∧
      (∀ a, a < 0x200 ∨ 0x200 + p.length ≤ a → Memory.read t.mem a = Memory.read State.reset.mem a)

/-- A program at rest stays at rest (R196, marked derived): a step leaves all state but `IR` (the same word), the timers and `TICKP`, and what
the model keeps of the ports (log entries 4, 6). -/
def Obligations.RestIsKeptByEveryStep : Prop :=
  ∀ (s : State) (a : Word), s.atRest a →
    ∃ t, Machine.step s = .next t ∧ t.atRest a ∧ t.ir.toNat = 0x1000 + a.toNat ∧
      t = { s with ir := t.ir, dt := t.dt, st := t.st, tickP := t.tickP, fbChanged := false, inputs := s.inputs.tail,
                   clock := s.clock + 1 }

/-- What the host reads (R8, R55, R170): the framebuffer port shows each cell as `0x00` or `0x01`, and `tone` is the level `ST != 0`. -/
def Obligations.HostReadsPixelsAndTone : Prop :=
  ∀ (s : State) (row : Fin 32) (col : Fin 64),
    s.fbData (BitVec.ofNat 11 (row.val * 64 + col.val)) = (if s.pixel row col = true then 0x01 else 0x00) ∧
    (s.tone = true ↔ s.st.toNat ≠ 0)

/-! ### Display and control flow -/

/-- `CLS` (R80): every cell becomes 0 and nothing else changes. -/
def Obligations.ClearScreenZeroesEveryPixel : Prop :=
  ∀ s : State, ∃ t, exec .cls s = .next t ∧ t = { s with fb := t.fb } ∧ ∀ row col, t.pixel row col = false

/-- `JP` (R81): its encoding (decision D1, log entry 8), and `PC = addr` for every `nnn`, with nothing else changed. -/
def Obligations.JumpSetsPc : Prop :=
  Decodes 0x1000 0xF000 (fun w => .jp (fieldNNN w)) ∧
  ∀ (nnn : Addr) (s : State), exec (.jp nnn) s = .next { s with pc := nnn.setWidth 16 }

/-- `CALL` (R82): push `PCnext` and jump; with 16 return addresses a no-op that records `STKOVF` (decision D4). -/
def Obligations.CallPushesAndJumps : Prop :=
  ∀ (nnn : Addr) (s : State), ∃ t, exec (.call nnn) s = .next t ∧
    (s.sp.val < 16 → t = { s with stack := t.stack, sp := t.sp, pc := nnn.setWidth 16 } ∧ t.sp.val = s.sp.val + 1 ∧
      ∀ k : Fin 16, t.stack[k] = if k.val = s.sp.val then s.pc else s.stack[k]) ∧
    (s.sp.val = 16 → t = { s with err := t.err } ∧ ∀ c, t.recorded c = true ↔ s.recorded c = true ∨ c = .stkovf)

/-- `RET` (R83): pop into `PC`, the slot keeps its value; with none a no-op that records `STKUNF` (decision D4). -/
def Obligations.ReturnPopsIntoPc : Prop :=
  ∀ s : State, ∃ t, exec .ret s = .next t ∧
    (0 < s.sp.val → t = { s with sp := t.sp, pc := t.pc } ∧ t.sp.val + 1 = s.sp.val ∧
      ∀ k : Fin 16, k.val = t.sp.val → t.pc = s.stack[k]) ∧
    (s.sp.val = 0 → t = { s with err := t.err } ∧ ∀ c, t.recorded c = true ↔ s.recorded c = true ∨ c = .stkunf)

/-- A `CALL` that is not the 17th and the `RET` after it come back to the instruction after the call, with `SP` and every register as they
were (R82, R83). -/
def Obligations.ReturnComesBackFromTheCall : Prop :=
  ∀ (nnn : Addr) (s : State), s.sp.val < 16 →
    ∃ t u, exec (.call nnn) s = .next t ∧ exec .ret t = .next u ∧ u = { s with stack := u.stack }

/-- The four skips (R90 to R93): their encodings (decision D1, log entry 8), `5xyN` and `9xyN` with `N` not 0 rejected (decision D2); `PC`
advances by an extra 2 exactly when the condition holds; nothing else changes. -/
def Obligations.SkipsAdvancePcWhenTheConditionHolds : Prop :=
  Decodes 0x3000 0xF000 (fun w => .seB (fieldX w) (fieldKK w)) ∧
  Decodes 0x4000 0xF000 (fun w => .sneB (fieldX w) (fieldKK w)) ∧
  Decodes 0x5000 0xF00F (fun w => .seR (fieldX w) (fieldY w)) ∧
  Decodes 0x9000 0xF00F (fun w => .sneR (fieldX w) (fieldY w)) ∧
  (∀ w : Word, w.toNat / 4096 = 5 ∨ w.toNat / 4096 = 9 → w.toNat % 16 ≠ 0 → ∃ e, decodeWord w = .error e) ∧
  ∀ (x y : Nibble) (kk : Byte) (s : State),
    exec (.seB x kk) s = .next { s with pc := if s.reg x = kk then s.pc + 2 else s.pc } ∧
    exec (.sneB x kk) s = .next { s with pc := if s.reg x = kk then s.pc else s.pc + 2 } ∧
    exec (.seR x y) s = .next { s with pc := if s.reg x = s.reg y then s.pc + 2 else s.pc } ∧
    exec (.sneR x y) s = .next { s with pc := if s.reg x = s.reg y then s.pc else s.pc + 2 } ∧
    exec (.seR x x) s = .next { s with pc := s.pc + 2 } ∧ exec (.sneR x x) s = .next s

/-! ### Load and arithmetic -/

/-- `LD.B` and `LD.R` (R101, R103): their encodings (decision D1, log entry 8); the destination receives the byte, every other register and all other state stay. -/
def Obligations.LoadImmediateAndCopy : Prop :=
  Decodes 0x6000 0xF000 (fun w => .ldB (fieldX w) (fieldKK w)) ∧
  Decodes 0x8000 0xF00F (fun w => .ldR (fieldX w) (fieldY w)) ∧
  ∀ (x y : Nibble) (kk : Byte) (s : State),
    (∃ t, exec (.ldB x kk) s = .next t ∧ t = { s with v := t.v } ∧ ∀ r, t.reg r = if r = x then kk else s.reg r) ∧
    (∃ t, exec (.ldR x y) s = .next t ∧ t = { s with v := t.v } ∧ ∀ r, t.reg r = if r = x then s.reg y else s.reg r) ∧
    exec (.ldR x x) s = .next s

/-- `ADD.B`, `OR`, `AND`, `XOR` (R102, R104 to R106): the destination receives the result, every other register, `VF` among them, and all
other state stay (that these write no flag is the spec's decision D10). -/
def Obligations.AddImmediateAndBitwiseWriteNoFlag : Prop :=
  ∀ (x y : Nibble) (kk : Byte) (s : State),
    (∃ t, exec (.addB x kk) s = .next t ∧ t = { s with v := t.v } ∧
      (t.reg x).toNat = ((s.reg x).toNat + kk.toNat) % 256 ∧ ∀ r, r ≠ x → t.reg r = s.reg r) ∧
    (∃ t, exec (.orR x y) s = .next t ∧ t = { s with v := t.v } ∧
      (∀ k, (t.reg x).getLsbD k = ((s.reg x).getLsbD k || (s.reg y).getLsbD k)) ∧ ∀ r, r ≠ x → t.reg r = s.reg r) ∧
    (∃ t, exec (.andR x y) s = .next t ∧ t = { s with v := t.v } ∧
      (∀ k, (t.reg x).getLsbD k = ((s.reg x).getLsbD k && (s.reg y).getLsbD k)) ∧ ∀ r, r ≠ x → t.reg r = s.reg r) ∧
    (∃ t, exec (.xorR x y) s = .next t ∧ t = { s with v := t.v } ∧
      (∀ k, (t.reg x).getLsbD k = ((s.reg x).getLsbD k ^^ (s.reg y).getLsbD k)) ∧ ∀ r, r ≠ x → t.reg r = s.reg r)

/-- `ADD.R` (R107): its encoding (decision D1, log entry 8); carry first, then the sum on the registers as they then stand, in each of the four operand shapes (the
order, which the shapes that name `VF` depend on, is the spec's decision D11). -/
def Obligations.AddWithCarryOut : Prop :=
  Decodes 0x8004 0xF00F (fun w => .addR (fieldX w) (fieldY w)) ∧
  ∀ (x y : Nibble) (s : State), ∃ t, exec (.addR x y) s = .next t ∧ t = { s with v := t.v } ∧
    (∀ r, r ≠ x → r ≠ 0xF → t.reg r = s.reg r) ∧
    ∀ c : Nat, c = (if 255 < (s.reg x).toNat + (s.reg y).toNat then 1 else 0) →
      (x ≠ 0xF → (t.reg 0xF).toNat = c) ∧
      (x ≠ 0xF → y ≠ 0xF → (t.reg x).toNat = ((s.reg x).toNat + (s.reg y).toNat) % 256) ∧
      (x ≠ 0xF → y = 0xF → (t.reg x).toNat = ((s.reg x).toNat + c) % 256) ∧
      (x = 0xF → y ≠ 0xF → (t.reg 0xF).toNat = (c + (s.reg y).toNat) % 256) ∧
      (x = 0xF → y = 0xF → (t.reg 0xF).toNat = 2 * c)

/-- `SUB` (R108): its encoding (decision D1, log entry 8); 1 in `VF` when there is no borrow, equality included; then the difference modulo 256, in each of the four
operand shapes (the order is the spec's decision D11). -/
def Obligations.SubtractWithNoBorrowFlag : Prop :=
  Decodes 0x8005 0xF00F (fun w => .sub (fieldX w) (fieldY w)) ∧
  ∀ (x y : Nibble) (s : State), ∃ t, exec (.sub x y) s = .next t ∧ t = { s with v := t.v } ∧
    (∀ r, r ≠ x → r ≠ 0xF → t.reg r = s.reg r) ∧
    ∀ nb : Nat, nb = (if (s.reg y).toNat ≤ (s.reg x).toNat then 1 else 0) →
      (x ≠ 0xF → (t.reg 0xF).toNat = nb) ∧
      (x ≠ 0xF → y ≠ 0xF → (t.reg x).toNat = ((s.reg x).toNat + 256 - (s.reg y).toNat) % 256) ∧
      (x ≠ 0xF → y = 0xF → (t.reg x).toNat = ((s.reg x).toNat + 256 - nb) % 256) ∧
      (x = 0xF → y ≠ 0xF → (t.reg 0xF).toNat = (nb + 256 - (s.reg y).toNat) % 256) ∧
      (x = 0xF → y = 0xF → (t.reg 0xF).toNat = 0)

/-- `SUBN` (R110): the other order, with the same polarity (decision D12) and the same order of writes (decision D11). -/
def Obligations.SubtractReversedWithNoBorrowFlag : Prop :=
  ∀ (x y : Nibble) (s : State), ∃ t, exec (.subn x y) s = .next t ∧ t = { s with v := t.v } ∧
    (∀ r, r ≠ x → r ≠ 0xF → t.reg r = s.reg r) ∧
    ∀ nb : Nat, nb = (if (s.reg x).toNat ≤ (s.reg y).toNat then 1 else 0) →
      (x ≠ 0xF → (t.reg 0xF).toNat = nb) ∧
      (x ≠ 0xF → y ≠ 0xF → (t.reg x).toNat = ((s.reg y).toNat + 256 - (s.reg x).toNat) % 256) ∧
      (x ≠ 0xF → y = 0xF → (t.reg x).toNat = (nb + 256 - (s.reg x).toNat) % 256) ∧
      (x = 0xF → y ≠ 0xF → (t.reg 0xF).toNat = ((s.reg y).toNat + 256 - nb) % 256) ∧
      (x = 0xF → y = 0xF → (t.reg 0xF).toNat = 0)

/-- `SHR` and `SHL` (R109, R111): one position, in place, the bit shifted out in `VF`; the field `y` is ignored (decision D9). -/
def Obligations.ShiftsMoveOneBitIntoVF : Prop :=
  ∀ (x y : Nibble) (s : State),
    (∃ t, exec (.shr x y) s = .next t ∧ t = { s with v := t.v } ∧ (∀ r, r ≠ x → r ≠ 0xF → t.reg r = s.reg r) ∧
      (x ≠ 0xF → (t.reg x).toNat = (s.reg x).toNat / 2 ∧ (t.reg 0xF).toNat = (s.reg x).toNat % 2) ∧
      (x = 0xF → (t.reg 0xF).toNat = 0) ∧ exec (.shr x 0) s = .next t) ∧
    (∃ t, exec (.shl x y) s = .next t ∧ t = { s with v := t.v } ∧ (∀ r, r ≠ x → r ≠ 0xF → t.reg r = s.reg r) ∧
      (x ≠ 0xF → (t.reg x).toNat = (s.reg x).toNat * 2 % 256 ∧ (t.reg 0xF).toNat = (s.reg x).toNat / 128) ∧
      (x = 0xF → (t.reg 0xF).toNat = 2 * ((s.reg 0xF).toNat / 128)) ∧ exec (.shl x 0) s = .next t)

/-! ### Index register, random -/

/-- `LD.I` (R120): its encoding (decision D1, log entry 8); `I` receives the zero-extended address, always in `0x0000..0x0FFF`, and nothing else changes. -/
def Obligations.LoadIndexImmediate : Prop :=
  Decodes 0xA000 0xF000 (fun w => .ldI (fieldNNN w)) ∧
  ∀ (nnn : Addr) (s : State), ∃ t, exec (.ldI nnn) s = .next t ∧ t = { s with i := t.i } ∧ t.i.toNat = nnn.toNat ∧
    t.i.toNat ≤ 0x0FFF

/-- `JP.V0` (R121): the target is the address plus `V[0]`, not masked to 12 bits (decision D7). -/
def Obligations.JumpOffsetAddsV0 : Prop :=
  ∀ (nnn : Addr) (s : State), ∃ t, exec (.jpV0 nnn) s = .next t ∧ t = { s with pc := t.pc } ∧
    t.pc.toNat = nnn.toNat + (s.reg 0).toNat

/-- `LD.F` (R122): `I` is five times the whole byte (decision D27). -/
def Obligations.GlyphAddressIsFiveTimesTheDigit : Prop :=
  ∀ (x : Nibble) (s : State), ∃ t, exec (.ldF x) s = .next t ∧ t = { s with i := t.i } ∧ t.i.toNat = (s.reg x).toNat * 5

/-- `ADD.I` (R123) for either value of `IDX_CARRY_LIMIT`: the carry first (decision D11), then the sum modulo 65536. The instruction is
this at the model's value of the parameter (log entry 2). -/
def Obligations.AddIndexCarriesAtTheLimit : Prop :=
  ∀ (x : Nibble) (s : State), exec (.addI x) s = .next (addIndex idxCarryLimit x s) ∧
    ∀ (limit : CarryLimit) (c : Nat), c = (if limit.value < s.i.toNat + (s.reg x).toNat then 1 else 0) →
      addIndex limit x s = { s with v := (addIndex limit x s).v, i := (addIndex limit x s).i } ∧
      ((addIndex limit x s).reg 0xF).toNat = c ∧
      (∀ r, r ≠ 0xF → (addIndex limit x s).reg r = s.reg r) ∧
      (x ≠ 0xF → (addIndex limit x s).i.toNat = (s.i.toNat + (s.reg x).toNat) % 65536) ∧
      (x = 0xF → (addIndex limit x s).i.toNat = (s.i.toNat + c) % 65536)

/-- `RND` (R124), for whatever number the host presents: `(rnd mod 255 + 1) & kk`, never 0 before the mask (that the generator is outside
is the spec's decision D19; log entries 3, 4). -/
def Obligations.RandomFollowsTheFormula : Prop :=
  ∀ (x : Nibble) (kk : Byte) (s : State), ∃ t, exec (.rnd x kk) s = .next t ∧ t = { s with v := t.v } ∧
    (t.reg x).toNat = (s.nowInputs.rndIn % 255 + 1) &&& kk.toNat ∧ (kk = 0xFF → t.reg x ≠ 0) ∧ ∀ r, r ≠ x → t.reg r = s.reg r

/-! ### Draw -/

/-- `DRW` (R130 to R132), the pixel loop refined to a picture: exactly the cells under set sprite bits are inverted, with wrap-around at both
edges; `VF` is 1 when one of them was lit and 0 otherwise; `ADDR` is recorded when a byte's address lies above `0x0FFF`; `fb_changed` is
pulsed; memory, `I` and every other register and all other state stay. The coordinates are those before `VF` is cleared. The order of
bits, the latching and the wrap of addresses are the spec's decisions D13, D14, D6; the pulse is D22, its field the model's (log entry 6). -/
def Obligations.DrawInvertsTheSpriteAndReportsCollision : Prop :=
  ∀ (x y n : Nibble) (s : State) (x0 : Fin 64) (y0 : Fin 32), x0.val = (s.reg x).toNat % 64 → y0.val = (s.reg y).toNat % 32 →
    ∃ t, exec (.drw x y n) s = .next t ∧
      t = { s with v := t.v, fb := t.fb, err := t.err, fbChanged := true } ∧
      (∀ row col, t.pixel row col = (s.pixel row col ^^ spriteBit s x0 y0 n.val row col)) ∧
      (∀ r, r ≠ 0xF → t.reg r = s.reg r) ∧
      ((∃ row col, spriteBit s x0 y0 n.val row col = true ∧ s.pixel row col = true) → t.reg 0xF = 1) ∧
      ((¬ ∃ row col, spriteBit s x0 y0 n.val row col = true ∧ s.pixel row col = true) → t.reg 0xF = 0) ∧
      (∀ c, t.recorded c = true ↔
        s.recorded c = true ∨ (c = .addr ∧ ∃ k, k < n.val ∧ 0x0FFF < (s.i + BitVec.ofNat 16 k).toNat))

/-- Drawing the same sprite at the same place twice gives the framebuffer back, and the second draw reports a collision exactly when the
sprite has a set bit over a cell that was dark at the start (DOC0's fourth property, R130). Neither coordinate register is `VF` here: with
`VF` as one, the second draw takes its coordinate from the flag of the first, and each of the two draws is as
`DrawInvertsTheSpriteAndReportsCollision` says. -/
def Obligations.DrawingTwiceRestoresTheScreen : Prop :=
  ∀ (x y n : Nibble) (s : State) (x0 : Fin 64) (y0 : Fin 32), x ≠ 0xF → y ≠ 0xF →
    x0.val = (s.reg x).toNat % 64 → y0.val = (s.reg y).toNat % 32 →
    ∃ t u, exec (.drw x y n) s = .next t ∧ exec (.drw x y n) t = .next u ∧
      (∀ row col, u.pixel row col = s.pixel row col) ∧
      (u.reg 0xF = 1 ↔ ∃ row col, spriteBit s x0 y0 n.val row col = true ∧ s.pixel row col = false)

/-! ### Input and timers -/

/-- `SKP` and `SKNP` (R140, R141, R146), for whatever keys the host holds: the key of the low 4 bits decides, a value above 15 is recorded
(decision D17), and nothing but `PC` and `ERR` changes. -/
def Obligations.KeySkipsTestTheKeyOfTheLowNibble : Prop :=
  ∀ (x : Nibble) (s : State),
    (∃ t, exec (.skp x) s = .next t ∧ t = { s with pc := t.pc, err := t.err } ∧
      t.pc = (if s.nowInputs.keyIn.getLsbD ((s.reg x).toNat % 16) = true then s.pc + 2 else s.pc) ∧
      ∀ c, t.recorded c = true ↔ s.recorded c = true ∨ (c = .key ∧ 15 < (s.reg x).toNat)) ∧
    (∃ t, exec (.sknp x) s = .next t ∧ t = { s with pc := t.pc, err := t.err } ∧
      t.pc = (if s.nowInputs.keyIn.getLsbD ((s.reg x).toNat % 16) = true then s.pc else s.pc + 2) ∧
      ∀ c, t.recorded c = true ↔ s.recorded c = true ∨ (c = .key ∧ 15 < (s.reg x).toNat))

/-- `LD.K` (R142): with no key held only `PC` goes back by 2; otherwise the least held key is stored and `PC` stays `PCnext` (level and
least key are the spec's decision D18). -/
def Obligations.KeyWaitReexecutesUntilAKeyIsHeld : Prop :=
  ∀ (x : Nibble) (s : State),
    (s.nowInputs.keyIn = 0 → exec (.ldK x) s = .next { s with pc := s.pc - 2 }) ∧
    (s.nowInputs.keyIn ≠ 0 →
      ∃ t, exec (.ldK x) s = .next t ∧ t = { s with v := t.v } ∧ (∀ r, r ≠ x → t.reg r = s.reg r) ∧
        ∃ k, k < 16 ∧ (t.reg x).toNat = k ∧ s.nowInputs.keyIn.getLsbD k = true ∧
          ∀ j, j < k → s.nowInputs.keyIn.getLsbD j = false)

/-- `LD.GDT`, `LD.SDT`, `LD.ST` (R143 to R145): the copy, and nothing else. -/
def Obligations.TimerInstructionsCopy : Prop :=
  ∀ (x : Nibble) (s : State),
    (∃ t, exec (.ldGdt x) s = .next t ∧ t = { s with v := t.v } ∧ ∀ r, t.reg r = if r = x then s.dt else s.reg r) ∧
    exec (.ldSdt x) s = .next { s with dt := s.reg x } ∧
    exec (.ldSt x) s = .next { s with st := s.reg x }

/-- The timer phase comes after execution (R27, R143 to R145; the position is the spec's decision D20): in a step with a tick pending
`LD.SDT` and `LD.ST` leave one less than the register (0 from 0), and `LD.GDT` reads `DT` before the decrement; without a tick they leave
the value itself. -/
def Obligations.TimersCountDownAfterTheInstruction : Prop :=
  ∀ (x : Nibble) (s t : State) (d : Nat), s.mode = .run → d = (if (s.tickP || s.nowInputs.tick) = true then 1 else 0) →
    Machine.step s = .next t →
    (decode [s.readByte s.pc, s.readByte (s.pc + 1)] = .ok (.ldSdt x, []) →
      t.dt.toNat = (s.reg x).toNat - d ∧ t.st.toNat = s.st.toNat - d) ∧
    (decode [s.readByte s.pc, s.readByte (s.pc + 1)] = .ok (.ldSt x, []) →
      t.st.toNat = (s.reg x).toNat - d ∧ t.dt.toNat = s.dt.toNat - d) ∧
    (decode [s.readByte s.pc, s.readByte (s.pc + 1)] = .ok (.ldGdt x, []) → t.reg x = s.dt ∧ t.dt.toNat = s.dt.toNat - d)

/-! ### BCD and bulk transfer -/

/-- `LD.BCD` (R150): the three decimal digits at `I`, `I+1`, `I+2`; every other cell, every register and `I` stay (decision D16);
`ADDR` is recorded when one of the addresses lies above `0x0FFF` (decision D6). -/
def Obligations.BcdStoresThreeDigits : Prop :=
  ∀ (x : Nibble) (s : State), ∃ t, exec (.ldBcd x) s = .next t ∧ t = { s with mem := t.mem, err := t.err } ∧
    (t.readByte s.i).toNat = (s.reg x).toNat / 100 ∧
    (t.readByte (s.i + 1)).toNat = (s.reg x).toNat / 10 % 10 ∧
    (t.readByte (s.i + 2)).toNat = (s.reg x).toNat % 10 ∧
    (∀ a, a ≠ cellOf s.i → a ≠ cellOf (s.i + 1) → a ≠ cellOf (s.i + 2) → Memory.read t.mem a = Memory.read s.mem a) ∧
    (∀ c, t.recorded c = true ↔
      s.recorded c = true ∨ (c = .addr ∧ ∃ k, k < 3 ∧ 0x0FFF < (s.i + BitVec.ofNat 16 k).toNat))

/-- `LD.STM` (R151): `V[0]..V[x]` at `I..I+x`; every other cell, every register and `I` stay. -/
def Obligations.BulkStoreWritesTheRegisters : Prop :=
  ∀ (x : Nibble) (s : State), ∃ t, exec (.ldStm x) s = .next t ∧ t = { s with mem := t.mem, err := t.err } ∧
    (∀ k : Nibble, k ≤ x → t.readByte (s.elemAddress k.val) = s.reg k) ∧
    (∀ a, (∀ k : Nibble, k ≤ x → a ≠ cellOf (s.elemAddress k.val)) → Memory.read t.mem a = Memory.read s.mem a) ∧
    (∀ c, t.recorded c = true ↔
      s.recorded c = true ∨ (c = .addr ∧ ∃ k, k ≤ x.val ∧ 0x0FFF < (s.i + BitVec.ofNat 16 k).toNat))

/-- `LD.LDM` (R152): `V[0]..V[x]` from `I..I+x`; the registers above `x`, memory and `I` stay. -/
def Obligations.BulkLoadReadsTheRegisters : Prop :=
  ∀ (x : Nibble) (s : State), ∃ t, exec (.ldLdm x) s = .next t ∧ t = { s with v := t.v, err := t.err } ∧
    (∀ k : Nibble, k ≤ x → t.reg k = s.readByte (s.elemAddress k.val)) ∧
    (∀ k : Nibble, x < k → t.reg k = s.reg k) ∧
    (∀ c, t.recorded c = true ↔
      s.recorded c = true ∨ (c = .addr ∧ ∃ k, k ≤ x.val ∧ 0x0FFF < (s.i + BitVec.ofNat 16 k).toNat))

/-- Bulk store, any change of the registers, bulk load with the same `I`: `V[0]..V[x]` hold what they held before the store (R152, DOC0's
eighth property as the spec reads it, N14). -/
def Obligations.BulkStoreThenLoadRoundTrips : Prop :=
  ∀ (x : Nibble) (s : State) (w : Vector Byte 16),
    ∃ t u, exec (.ldStm x) s = .next t ∧ exec (.ldLdm x) { t with v := w } = .next u ∧
      (∀ k : Nibble, k ≤ x → u.reg k = s.reg k) ∧ (∀ k : Nibble, x < k → u.reg k = w[k])

/-! ### The call stack as a storage of its own -/

/-- R15: only `CALL` and `RET` use the call stack. Every other instruction runs alike whatever the slots and `SP` hold and leaves both;
`CALL` reads no slot: with other slots it answers the same state, each slot either written alike or left as it was; `RET` writes none; no
access to memory and no load write reaches a slot; each of the 16 slots is 0 after reset. -/
def Obligations.StackIsReachedByCallAndReturnAlone : Prop :=
  (∀ (i : Instr) (s : State) (slots : Vector Word 16) (n : Fin 17), (∀ nnn, i ≠ .call nnn) → i ≠ .ret →
    ∃ t, exec i s = .next t ∧ t.stack = s.stack ∧ t.sp = s.sp ∧
      exec i { s with stack := slots, sp := n } = .next { t with stack := slots, sp := n }) ∧
  (∀ (nnn : Addr) (s : State) (slots : Vector Word 16),
    ∃ t u, exec (.call nnn) s = .next t ∧ exec (.call nnn) { s with stack := slots } = .next u ∧ u = { t with stack := u.stack } ∧
      ∀ k : Fin 16, u.stack[k] = t.stack[k] ∨ (t.stack[k] = s.stack[k] ∧ u.stack[k] = slots[k])) ∧
  (∀ s : State, ∃ t, exec .ret s = .next t ∧ t.stack = s.stack) ∧
  (∀ (s : State) (a : Word) (c : Addr) (b : Byte),
    (s.memRead a).2.stack = s.stack ∧ (s.memWrite a b).stack = s.stack ∧ (loadWrite c b s).stack = s.stack) ∧
  (∀ k : Fin 16, State.reset.stack[k] = 0x0000)
end

