-- ==== Sys2Proof/Laws/Memory.lean ====
section
/-! SUPPORT. The laws of memory: read after write, that a write keeps the canonical form, and that canonical memories
that read alike are equal. -/

namespace Sys2Proof.Machine.Memory

@[simp] theorem read_nil (a : Nat) : Memory.read [] a = unlistedByte a := rfl

theorem read_cons (k : Nat) (b : Byte) (m : Memory) (a : Nat) :
    Memory.read ((k, b) :: m) a = if k = a then b else Memory.read m a := rfl

/-- A cell that is not listed reads as its reset content. -/
theorem read_of_not_listed {m : Memory} {a : Nat} (h : ∀ c ∈ m, c.1 ≠ a) : Memory.read m a = unlistedByte a := by
  induction m with
  | nil => rfl
  | cons c m ih =>
    obtain ⟨k, b⟩ := c
    rw [read_cons, if_neg (h (k, b) (by simp)), ih fun c hc => h c (by simp [hc])]

theorem read_erase (m : Memory) (a c : Nat) :
    Memory.read (Memory.erase m a) c = if c = a then unlistedByte a else Memory.read m c := by
  induction m with
  | nil => by_cases h : c = a <;> simp [Memory.erase, h]
  | cons e m ih =>
    obtain ⟨k, b⟩ := e
    unfold Memory.erase at ih ⊢
    by_cases hk : k = a
    · rw [List.filter_cons_of_neg (by simp [hk]), ih, read_cons]
      by_cases hc : c = a
      · simp [hc]
      · rw [if_neg hc, if_neg hc, if_neg (by omega)]
    · rw [List.filter_cons_of_pos (by simp [hk]), read_cons, read_cons, ih]
      by_cases hkc : k = c
      · rw [if_pos hkc, if_pos hkc, if_neg (by omega)]
      · rw [if_neg hkc, if_neg hkc]

theorem read_insert {m : Memory} {a : Nat} (b : Byte) (h : ∀ e ∈ m, e.1 ≠ a) (c : Nat) :
    Memory.read (Memory.insert m a b) c = if c = a then b else Memory.read m c := by
  induction m with
  | nil => simp [Memory.insert, Memory.read, eq_comm]
  | cons e m ih =>
    obtain ⟨k, d⟩ := e
    have hk : k ≠ a := h (k, d) (by simp)
    unfold Memory.insert
    split
    · simp [read_cons, eq_comm]
    · rw [read_cons, read_cons, ih fun e he => h e (by simp [he])]
      by_cases hkc : k = c
      · rw [if_pos hkc, if_pos hkc, if_neg (by omega)]
      · rw [if_neg hkc, if_neg hkc]

theorem not_listed_erase (m : Memory) (a : Nat) : ∀ e ∈ Memory.erase m a, e.1 ≠ a := by
  intro e he
  simpa using (List.mem_filter.mp he).2

/-- Read after write: the written cell holds the byte, every other cell what it held. -/
@[simp] theorem read_write (m : Memory) (a : Nat) (b : Byte) (c : Nat) :
    Memory.read (Memory.write m a b) c = if c = a then b else Memory.read m c := by
  unfold Memory.write
  split
  case isTrue h => rw [read_erase, h]
  case isFalse h =>
    rw [read_insert b (not_listed_erase m a), read_erase]
    by_cases hc : c = a <;> simp [hc]

/-- Where the entries of an insertion come from. -/
theorem mem_insert {m : Memory} {a : Nat} {b : Byte} {e : Host.Cell} (h : e ∈ Memory.insert m a b) :
    e = (a, b) ∨ e ∈ m := by
  induction m with
  | nil => simpa [Memory.insert] using h
  | cons d m ih =>
    obtain ⟨k, v⟩ := d
    unfold Memory.insert at h
    split at h
    · simpa using h
    · rcases List.mem_cons.mp h with h | h
      · exact .inr (by simp [h])
      · exact (ih h).imp_right fun h => by simp [h]

theorem pairwise_insert {m : Memory} {a : Nat} (b : Byte) (h : ∀ e ∈ m, e.1 ≠ a)
    (hp : List.Pairwise (fun c d : Host.Cell => c.1 < d.1) m) :
    List.Pairwise (fun c d : Host.Cell => c.1 < d.1) (Memory.insert m a b) := by
  induction m with
  | nil => simp [Memory.insert]
  | cons d m ih =>
    obtain ⟨k, v⟩ := d
    obtain ⟨hk, hp⟩ := List.pairwise_cons.mp hp
    have hka : k ≠ a := h (k, v) (by simp)
    unfold Memory.insert
    split
    case isTrue hlt =>
      refine List.pairwise_cons.mpr ⟨fun e he => ?_, List.pairwise_cons.mpr ⟨hk, hp⟩⟩
      rcases List.mem_cons.mp he with rfl | he
      · exact hlt
      · exact Nat.lt_trans hlt (hk e he)
    case isFalse hlt =>
      refine List.pairwise_cons.mpr ⟨fun e he => ?_, ih (fun e he => h e (by simp [he])) hp⟩
      rcases mem_insert he with rfl | he
      · show k < a
        omega
      · exact hk e he

/-- Every write keeps the canonical form. -/
theorem write_wf {m : Memory} {a : Nat} (b : Byte) (ha : a < Config.memSize) (h : Memory.wf m) :
    Memory.wf (Memory.write m a b) := by
  have hsub : ∀ e ∈ Memory.erase m a, e ∈ m := fun e he => (List.mem_filter.mp he).1
  have hp : List.Pairwise (fun c d : Host.Cell => c.1 < d.1) (Memory.erase m a) := h.1.filter _
  unfold Memory.write
  split
  · exact ⟨hp, fun e he => h.2 e (hsub e he)⟩
  case isFalse hb =>
    refine ⟨pairwise_insert b (not_listed_erase m a) hp, fun e he => ?_⟩
    rcases mem_insert he with rfl | he
    · exact ⟨ha, hb⟩
    · exact h.2 e (hsub e he)

/-- The empty memory is canonical. -/
theorem wf_nil : Memory.wf [] := by simp [Memory.wf]

/-- In a canonical memory a listed cell reads as it is listed. -/
theorem read_of_mem {m : Memory} (h : List.Pairwise (fun c d : Host.Cell => c.1 < d.1) m) {e : Host.Cell} (he : e ∈ m) :
    Memory.read m e.1 = e.2 := by
  induction m with
  | nil => simp at he
  | cons d m ih =>
    obtain ⟨k, v⟩ := d
    obtain ⟨hk, hp⟩ := List.pairwise_cons.mp h
    rcases List.mem_cons.mp he with rfl | he
    · simp [read_cons]
    · have := hk e he
      rw [read_cons, if_neg (by simp only at this; omega), ih hp he]

/-- A cell that reads as something else than its reset content is listed. -/
theorem mem_of_read_ne {m : Memory} {a : Nat} (h : Memory.read m a ≠ unlistedByte a) : (a, Memory.read m a) ∈ m := by
  induction m with
  | nil => exact absurd rfl h
  | cons d m ih =>
    obtain ⟨k, v⟩ := d
    rw [read_cons] at h ⊢
    by_cases hk : k = a
    · simp [hk]
    · rw [if_neg hk] at h ⊢
      exact List.mem_cons_of_mem _ (ih h)

/-- Equal memories are equal data: canonical memories that read alike are the same list. -/
theorem eq_of_read_eq {m n : Memory} (hm : Memory.wf m) (hn : Memory.wf n)
    (h : ∀ a, Memory.read m a = Memory.read n a) : m = n := by
  have key : ∀ {p q : Memory}, Memory.wf p → Memory.wf q → (∀ a, Memory.read p a = Memory.read q a) → p ⊆ q := by
    intro p q hp hq hpq e he
    have hr := read_of_mem hp.1 he
    have hne : Memory.read q e.1 ≠ unlistedByte e.1 := by rw [← hpq, hr]; exact (hp.2 e he).2
    have := mem_of_read_ne hne
    rwa [← hpq, hr] at this
  have nodup : ∀ {p : Memory}, Memory.wf p → p.Nodup := fun hp =>
    hp.1.imp fun {c d} hlt heq => by subst heq; exact Nat.lt_irrefl _ hlt
  have hperm : m.Perm n := List.Subperm.antisymm (List.subperm_of_subset (nodup hm) (key hm hn h))
    (List.subperm_of_subset (nodup hn) (key hn hm fun a => (h a).symm))
  exact hperm.eq_of_pairwise (le := fun c d : Host.Cell => c.1 < d.1) (fun a b _ _ h1 h2 => by omega) hm.1 hn.1

end Sys2Proof.Machine.Memory
end

