-- ==== Sys2Proof/Laws/State.lean ====
section
/-! SUPPORT. Beside State: what each named update leaves in each field, all true by rfl, so that no later proof unfolds a
record update. -/

namespace Sys2Proof.Machine

variable (s : State)

/-! ### setReg -/

@[simp] theorem setReg_v (x : Nibble) (b : Byte) : (s.setReg x b).v = s.v.set x b := rfl
@[simp] theorem setReg_i (x : Nibble) (b : Byte) : (s.setReg x b).i = s.i := rfl
@[simp] theorem setReg_pc (x : Nibble) (b : Byte) : (s.setReg x b).pc = s.pc := rfl
@[simp] theorem setReg_ir (x : Nibble) (b : Byte) : (s.setReg x b).ir = s.ir := rfl
@[simp] theorem setReg_stack (x : Nibble) (b : Byte) : (s.setReg x b).stack = s.stack := rfl
@[simp] theorem setReg_sp (x : Nibble) (b : Byte) : (s.setReg x b).sp = s.sp := rfl
@[simp] theorem setReg_dt (x : Nibble) (b : Byte) : (s.setReg x b).dt = s.dt := rfl
@[simp] theorem setReg_st (x : Nibble) (b : Byte) : (s.setReg x b).st = s.st := rfl
@[simp] theorem setReg_fb (x : Nibble) (b : Byte) : (s.setReg x b).fb = s.fb := rfl
@[simp] theorem setReg_mem (x : Nibble) (b : Byte) : (s.setReg x b).mem = s.mem := rfl
@[simp] theorem setReg_tickP (x : Nibble) (b : Byte) : (s.setReg x b).tickP = s.tickP := rfl
@[simp] theorem setReg_err (x : Nibble) (b : Byte) : (s.setReg x b).err = s.err := rfl
@[simp] theorem setReg_ucnt (x : Nibble) (b : Byte) : (s.setReg x b).ucnt = s.ucnt := rfl
@[simp] theorem setReg_mode (x : Nibble) (b : Byte) : (s.setReg x b).mode = s.mode := rfl
@[simp] theorem setReg_fbChanged (x : Nibble) (b : Byte) : (s.setReg x b).fbChanged = s.fbChanged := rfl
@[simp] theorem setReg_inputs (x : Nibble) (b : Byte) : (s.setReg x b).inputs = s.inputs := rfl
@[simp] theorem setReg_clock (x : Nibble) (b : Byte) : (s.setReg x b).clock = s.clock := rfl

/-! ### setI -/

@[simp] theorem setI_v (w : Word) : (s.setI w).v = s.v := rfl
@[simp] theorem setI_i (w : Word) : (s.setI w).i = w := rfl
@[simp] theorem setI_pc (w : Word) : (s.setI w).pc = s.pc := rfl
@[simp] theorem setI_ir (w : Word) : (s.setI w).ir = s.ir := rfl
@[simp] theorem setI_stack (w : Word) : (s.setI w).stack = s.stack := rfl
@[simp] theorem setI_sp (w : Word) : (s.setI w).sp = s.sp := rfl
@[simp] theorem setI_dt (w : Word) : (s.setI w).dt = s.dt := rfl
@[simp] theorem setI_st (w : Word) : (s.setI w).st = s.st := rfl
@[simp] theorem setI_fb (w : Word) : (s.setI w).fb = s.fb := rfl
@[simp] theorem setI_mem (w : Word) : (s.setI w).mem = s.mem := rfl
@[simp] theorem setI_tickP (w : Word) : (s.setI w).tickP = s.tickP := rfl
@[simp] theorem setI_err (w : Word) : (s.setI w).err = s.err := rfl
@[simp] theorem setI_ucnt (w : Word) : (s.setI w).ucnt = s.ucnt := rfl
@[simp] theorem setI_mode (w : Word) : (s.setI w).mode = s.mode := rfl
@[simp] theorem setI_fbChanged (w : Word) : (s.setI w).fbChanged = s.fbChanged := rfl
@[simp] theorem setI_inputs (w : Word) : (s.setI w).inputs = s.inputs := rfl
@[simp] theorem setI_clock (w : Word) : (s.setI w).clock = s.clock := rfl

/-! ### setPc -/

@[simp] theorem setPc_v (w : Word) : (s.setPc w).v = s.v := rfl
@[simp] theorem setPc_i (w : Word) : (s.setPc w).i = s.i := rfl
@[simp] theorem setPc_pc (w : Word) : (s.setPc w).pc = w := rfl
@[simp] theorem setPc_ir (w : Word) : (s.setPc w).ir = s.ir := rfl
@[simp] theorem setPc_stack (w : Word) : (s.setPc w).stack = s.stack := rfl
@[simp] theorem setPc_sp (w : Word) : (s.setPc w).sp = s.sp := rfl
@[simp] theorem setPc_dt (w : Word) : (s.setPc w).dt = s.dt := rfl
@[simp] theorem setPc_st (w : Word) : (s.setPc w).st = s.st := rfl
@[simp] theorem setPc_fb (w : Word) : (s.setPc w).fb = s.fb := rfl
@[simp] theorem setPc_mem (w : Word) : (s.setPc w).mem = s.mem := rfl
@[simp] theorem setPc_tickP (w : Word) : (s.setPc w).tickP = s.tickP := rfl
@[simp] theorem setPc_err (w : Word) : (s.setPc w).err = s.err := rfl
@[simp] theorem setPc_ucnt (w : Word) : (s.setPc w).ucnt = s.ucnt := rfl
@[simp] theorem setPc_mode (w : Word) : (s.setPc w).mode = s.mode := rfl
@[simp] theorem setPc_fbChanged (w : Word) : (s.setPc w).fbChanged = s.fbChanged := rfl
@[simp] theorem setPc_inputs (w : Word) : (s.setPc w).inputs = s.inputs := rfl
@[simp] theorem setPc_clock (w : Word) : (s.setPc w).clock = s.clock := rfl

/-! ### setDt -/

@[simp] theorem setDt_v (b : Byte) : (s.setDt b).v = s.v := rfl
@[simp] theorem setDt_i (b : Byte) : (s.setDt b).i = s.i := rfl
@[simp] theorem setDt_pc (b : Byte) : (s.setDt b).pc = s.pc := rfl
@[simp] theorem setDt_ir (b : Byte) : (s.setDt b).ir = s.ir := rfl
@[simp] theorem setDt_stack (b : Byte) : (s.setDt b).stack = s.stack := rfl
@[simp] theorem setDt_sp (b : Byte) : (s.setDt b).sp = s.sp := rfl
@[simp] theorem setDt_dt (b : Byte) : (s.setDt b).dt = b := rfl
@[simp] theorem setDt_st (b : Byte) : (s.setDt b).st = s.st := rfl
@[simp] theorem setDt_fb (b : Byte) : (s.setDt b).fb = s.fb := rfl
@[simp] theorem setDt_mem (b : Byte) : (s.setDt b).mem = s.mem := rfl
@[simp] theorem setDt_tickP (b : Byte) : (s.setDt b).tickP = s.tickP := rfl
@[simp] theorem setDt_err (b : Byte) : (s.setDt b).err = s.err := rfl
@[simp] theorem setDt_ucnt (b : Byte) : (s.setDt b).ucnt = s.ucnt := rfl
@[simp] theorem setDt_mode (b : Byte) : (s.setDt b).mode = s.mode := rfl
@[simp] theorem setDt_fbChanged (b : Byte) : (s.setDt b).fbChanged = s.fbChanged := rfl
@[simp] theorem setDt_inputs (b : Byte) : (s.setDt b).inputs = s.inputs := rfl
@[simp] theorem setDt_clock (b : Byte) : (s.setDt b).clock = s.clock := rfl

/-! ### setSt -/

@[simp] theorem setSt_v (b : Byte) : (s.setSt b).v = s.v := rfl
@[simp] theorem setSt_i (b : Byte) : (s.setSt b).i = s.i := rfl
@[simp] theorem setSt_pc (b : Byte) : (s.setSt b).pc = s.pc := rfl
@[simp] theorem setSt_ir (b : Byte) : (s.setSt b).ir = s.ir := rfl
@[simp] theorem setSt_stack (b : Byte) : (s.setSt b).stack = s.stack := rfl
@[simp] theorem setSt_sp (b : Byte) : (s.setSt b).sp = s.sp := rfl
@[simp] theorem setSt_dt (b : Byte) : (s.setSt b).dt = s.dt := rfl
@[simp] theorem setSt_st (b : Byte) : (s.setSt b).st = b := rfl
@[simp] theorem setSt_fb (b : Byte) : (s.setSt b).fb = s.fb := rfl
@[simp] theorem setSt_mem (b : Byte) : (s.setSt b).mem = s.mem := rfl
@[simp] theorem setSt_tickP (b : Byte) : (s.setSt b).tickP = s.tickP := rfl
@[simp] theorem setSt_err (b : Byte) : (s.setSt b).err = s.err := rfl
@[simp] theorem setSt_ucnt (b : Byte) : (s.setSt b).ucnt = s.ucnt := rfl
@[simp] theorem setSt_mode (b : Byte) : (s.setSt b).mode = s.mode := rfl
@[simp] theorem setSt_fbChanged (b : Byte) : (s.setSt b).fbChanged = s.fbChanged := rfl
@[simp] theorem setSt_inputs (b : Byte) : (s.setSt b).inputs = s.inputs := rfl
@[simp] theorem setSt_clock (b : Byte) : (s.setSt b).clock = s.clock := rfl

/-! ### clearScreen -/

@[simp] theorem clearScreen_v : (s.clearScreen).v = s.v := rfl
@[simp] theorem clearScreen_i : (s.clearScreen).i = s.i := rfl
@[simp] theorem clearScreen_pc : (s.clearScreen).pc = s.pc := rfl
@[simp] theorem clearScreen_ir : (s.clearScreen).ir = s.ir := rfl
@[simp] theorem clearScreen_stack : (s.clearScreen).stack = s.stack := rfl
@[simp] theorem clearScreen_sp : (s.clearScreen).sp = s.sp := rfl
@[simp] theorem clearScreen_dt : (s.clearScreen).dt = s.dt := rfl
@[simp] theorem clearScreen_st : (s.clearScreen).st = s.st := rfl
@[simp] theorem clearScreen_fb : (s.clearScreen).fb = Vector.replicate 32 0 := rfl
@[simp] theorem clearScreen_mem : (s.clearScreen).mem = s.mem := rfl
@[simp] theorem clearScreen_tickP : (s.clearScreen).tickP = s.tickP := rfl
@[simp] theorem clearScreen_err : (s.clearScreen).err = s.err := rfl
@[simp] theorem clearScreen_ucnt : (s.clearScreen).ucnt = s.ucnt := rfl
@[simp] theorem clearScreen_mode : (s.clearScreen).mode = s.mode := rfl
@[simp] theorem clearScreen_fbChanged : (s.clearScreen).fbChanged = s.fbChanged := rfl
@[simp] theorem clearScreen_inputs : (s.clearScreen).inputs = s.inputs := rfl
@[simp] theorem clearScreen_clock : (s.clearScreen).clock = s.clock := rfl

/-! ### flipPixel -/

@[simp] theorem flipPixel_v (r : Fin 32) (c : Fin 64) : (s.flipPixel r c).v = s.v := rfl
@[simp] theorem flipPixel_i (r : Fin 32) (c : Fin 64) : (s.flipPixel r c).i = s.i := rfl
@[simp] theorem flipPixel_pc (r : Fin 32) (c : Fin 64) : (s.flipPixel r c).pc = s.pc := rfl
@[simp] theorem flipPixel_ir (r : Fin 32) (c : Fin 64) : (s.flipPixel r c).ir = s.ir := rfl
@[simp] theorem flipPixel_stack (r : Fin 32) (c : Fin 64) : (s.flipPixel r c).stack = s.stack := rfl
@[simp] theorem flipPixel_sp (r : Fin 32) (c : Fin 64) : (s.flipPixel r c).sp = s.sp := rfl
@[simp] theorem flipPixel_dt (r : Fin 32) (c : Fin 64) : (s.flipPixel r c).dt = s.dt := rfl
@[simp] theorem flipPixel_st (r : Fin 32) (c : Fin 64) : (s.flipPixel r c).st = s.st := rfl
@[simp] theorem flipPixel_fb (r : Fin 32) (c : Fin 64) : (s.flipPixel r c).fb = s.fb.set r (s.fb[r] ^^^ BitVec.twoPow 64 c) := rfl
@[simp] theorem flipPixel_mem (r : Fin 32) (c : Fin 64) : (s.flipPixel r c).mem = s.mem := rfl
@[simp] theorem flipPixel_tickP (r : Fin 32) (c : Fin 64) : (s.flipPixel r c).tickP = s.tickP := rfl
@[simp] theorem flipPixel_err (r : Fin 32) (c : Fin 64) : (s.flipPixel r c).err = s.err := rfl
@[simp] theorem flipPixel_ucnt (r : Fin 32) (c : Fin 64) : (s.flipPixel r c).ucnt = s.ucnt := rfl
@[simp] theorem flipPixel_mode (r : Fin 32) (c : Fin 64) : (s.flipPixel r c).mode = s.mode := rfl
@[simp] theorem flipPixel_fbChanged (r : Fin 32) (c : Fin 64) : (s.flipPixel r c).fbChanged = s.fbChanged := rfl
@[simp] theorem flipPixel_inputs (r : Fin 32) (c : Fin 64) : (s.flipPixel r c).inputs = s.inputs := rfl
@[simp] theorem flipPixel_clock (r : Fin 32) (c : Fin 64) : (s.flipPixel r c).clock = s.clock := rfl

/-! ### pulseFbChanged -/

@[simp] theorem pulseFbChanged_v : (s.pulseFbChanged).v = s.v := rfl
@[simp] theorem pulseFbChanged_i : (s.pulseFbChanged).i = s.i := rfl
@[simp] theorem pulseFbChanged_pc : (s.pulseFbChanged).pc = s.pc := rfl
@[simp] theorem pulseFbChanged_ir : (s.pulseFbChanged).ir = s.ir := rfl
@[simp] theorem pulseFbChanged_stack : (s.pulseFbChanged).stack = s.stack := rfl
@[simp] theorem pulseFbChanged_sp : (s.pulseFbChanged).sp = s.sp := rfl
@[simp] theorem pulseFbChanged_dt : (s.pulseFbChanged).dt = s.dt := rfl
@[simp] theorem pulseFbChanged_st : (s.pulseFbChanged).st = s.st := rfl
@[simp] theorem pulseFbChanged_fb : (s.pulseFbChanged).fb = s.fb := rfl
@[simp] theorem pulseFbChanged_mem : (s.pulseFbChanged).mem = s.mem := rfl
@[simp] theorem pulseFbChanged_tickP : (s.pulseFbChanged).tickP = s.tickP := rfl
@[simp] theorem pulseFbChanged_err : (s.pulseFbChanged).err = s.err := rfl
@[simp] theorem pulseFbChanged_ucnt : (s.pulseFbChanged).ucnt = s.ucnt := rfl
@[simp] theorem pulseFbChanged_mode : (s.pulseFbChanged).mode = s.mode := rfl
@[simp] theorem pulseFbChanged_fbChanged : (s.pulseFbChanged).fbChanged = true := rfl
@[simp] theorem pulseFbChanged_inputs : (s.pulseFbChanged).inputs = s.inputs := rfl
@[simp] theorem pulseFbChanged_clock : (s.pulseFbChanged).clock = s.clock := rfl

/-! ### raise -/

@[simp] theorem raise_v (c : ErrCond) : (s.raise c).v = s.v := rfl
@[simp] theorem raise_i (c : ErrCond) : (s.raise c).i = s.i := rfl
@[simp] theorem raise_pc (c : ErrCond) : (s.raise c).pc = s.pc := rfl
@[simp] theorem raise_ir (c : ErrCond) : (s.raise c).ir = s.ir := rfl
@[simp] theorem raise_stack (c : ErrCond) : (s.raise c).stack = s.stack := rfl
@[simp] theorem raise_sp (c : ErrCond) : (s.raise c).sp = s.sp := rfl
@[simp] theorem raise_dt (c : ErrCond) : (s.raise c).dt = s.dt := rfl
@[simp] theorem raise_st (c : ErrCond) : (s.raise c).st = s.st := rfl
@[simp] theorem raise_fb (c : ErrCond) : (s.raise c).fb = s.fb := rfl
@[simp] theorem raise_mem (c : ErrCond) : (s.raise c).mem = s.mem := rfl
@[simp] theorem raise_tickP (c : ErrCond) : (s.raise c).tickP = s.tickP := rfl
@[simp] theorem raise_err (c : ErrCond) : (s.raise c).err = s.err ||| BitVec.twoPow 5 c.code := rfl
@[simp] theorem raise_ucnt (c : ErrCond) : (s.raise c).ucnt = s.ucnt := rfl
@[simp] theorem raise_mode (c : ErrCond) : (s.raise c).mode = s.mode := rfl
@[simp] theorem raise_fbChanged (c : ErrCond) : (s.raise c).fbChanged = s.fbChanged := rfl
@[simp] theorem raise_inputs (c : ErrCond) : (s.raise c).inputs = s.inputs := rfl
@[simp] theorem raise_clock (c : ErrCond) : (s.raise c).clock = s.clock := rfl

end Sys2Proof.Machine
end

