-- ==== Sys2Proof/Laws/Ops.lean ====
section
/-! SUPPORT. One lemma for each shared operation that says once everything it does. -/

namespace Sys2Proof.Machine

/-! ### Registers -/

@[simp] theorem reg_setReg (s : State) (x y : Nibble) (b : Byte) :
    (s.setReg x b).reg y = if x = y then b else s.reg y := by
  simp [State.reg, Vector.getElem_set, Fin.ext_iff]

/-- Registers are determined by what reading them gives. -/
theorem v_ext {s t : State} (h : ∀ x, s.reg x = t.reg x) : s.v = t.v :=
  Vector.ext fun k hk => h ⟨k, hk⟩

/-- Reading a register looks at the register file alone. -/
theorem reg_congr {s t : State} (h : s.v = t.v) (x : Nibble) : s.reg x = t.reg x := by simp [State.reg, h]

@[simp] theorem reg_setI (s : State) (w : Word) (x : Nibble) : (s.setI w).reg x = s.reg x := rfl
@[simp] theorem reg_setPc (s : State) (w : Word) (x : Nibble) : (s.setPc w).reg x = s.reg x := rfl
@[simp] theorem reg_raise (s : State) (c : ErrCond) (x : Nibble) : (s.raise c).reg x = s.reg x := rfl
@[simp] theorem reg_flipPixel (s : State) (r : Fin 32) (c : Fin 64) (x : Nibble) : (s.flipPixel r c).reg x = s.reg x := rfl

/-! ### Skips -/

/-- A skip changes `PC` alone. -/
theorem skipIf_eq (s : State) (c : Bool) : s.skipIf c = { s with pc := if c then s.pc + 2 else s.pc } := by
  cases c <;> rfl

/-! ### Error conditions -/

theorem ErrCond.code_lt (c : ErrCond) : c.code < 5 := by cases c <;> decide

theorem ErrCond.code_inj (c d : ErrCond) : c.code = d.code ↔ c = d := by cases c <;> cases d <;> decide

/-- `raise` sets the bit of its condition and no other. -/
@[simp] theorem recorded_raise (s : State) (c d : ErrCond) :
    (s.raise c).recorded d = (s.recorded d || decide (c = d)) := by
  have := d.code_lt
  simp [State.recorded, this, ErrCond.code_inj, eq_comm]

/-- `ERR` is determined by its five conditions. -/
theorem err_ext {s t : State} (h : ∀ c, s.recorded c = t.recorded c) : s.err = t.err := by
  apply BitVec.eq_of_getLsbD_eq
  intro k hk
  have : k = 0 ∨ k = 1 ∨ k = 2 ∨ k = 3 ∨ k = 4 := by omega
  rcases this with rfl | rfl | rfl | rfl | rfl
  exacts [h .undef, h .stkovf, h .stkunf, h .addr, h .key]

/-- Reading a condition looks at `ERR` alone. -/
theorem recorded_congr {s t : State} (h : s.err = t.err) (c : ErrCond) : s.recorded c = t.recorded c := by
  simp [State.recorded, h]

/-- The check of an address changes `ERR` alone. -/
theorem checkAddr_eq (s : State) (a : Word) :
    s.checkAddr a = { s with err := if outOfRange a then s.err ||| BitVec.twoPow 5 3 else s.err } := by
  unfold State.checkAddr
  split <;> rfl

@[simp] theorem recorded_checkAddr (s : State) (a : Word) (d : ErrCond) :
    (s.checkAddr a).recorded d = (s.recorded d || (decide (d = .addr) && outOfRange a)) := by
  unfold State.checkAddr
  split
  case isTrue h => simp [h, eq_comm]
  case isFalse h => simp [h]

/-- The check of a key number changes `ERR` alone. -/
theorem checkKey_eq (s : State) (b : Byte) :
    s.checkKey b = { s with err := if 15 < b.toNat then s.err ||| BitVec.twoPow 5 4 else s.err } := by
  unfold State.checkKey
  split <;> rfl

@[simp] theorem recorded_checkKey (s : State) (b : Byte) (d : ErrCond) :
    (s.checkKey b).recorded d = (s.recorded d || (decide (d = .key) && decide (15 < b.toNat))) := by
  unfold State.checkKey
  split
  case isTrue h => simp [h, eq_comm]
  case isFalse h => simp [h]

/-! ### Flags -/

/-- A flag is the number 1 or 0. -/
theorem flagByte_toNat (c : Bool) : (flagByte c).toNat = if c then 1 else 0 := by cases c <;> rfl

/-- A flag writer changes the register file alone. -/
theorem flagThen_eq (c : Bool) (x y : Nibble) (op : Byte → Byte → Byte) (s : State) :
    flagThen c x y op s = { s with v := (flagThen c x y op s).v } := rfl

/-- What a flag writer leaves in each register: the result in `x`, computed from the registers as they stand after the flag has
been written; the flag in `VF` unless that is `x` (R100). -/
theorem reg_flagThen (c : Bool) (x y : Nibble) (op : Byte → Byte → Byte) (s : State) (r : Nibble) :
    (flagThen c x y op s).reg r =
      if x = r then op (if vF = x then flagByte c else s.reg x) (if vF = y then flagByte c else s.reg y)
      else if vF = r then flagByte c else s.reg r := by
  simp [flagThen, State.setFlag]

/-! ### Memory accesses -/

theorem cellOf_lt (a : Word) : cellOf a < Config.memSize := Nat.mod_lt _ (by decide)

/-- A write changes memory and `ERR` alone. -/
theorem memWrite_eq (s : State) (a : Word) (b : Byte) :
    s.memWrite a b = { s with mem := Memory.write s.mem (cellOf a) b, err := (s.checkAddr a).err } := by
  rw [State.memWrite, checkAddr_eq]

@[simp] theorem memWrite_mem (s : State) (a : Word) (b : Byte) :
    (s.memWrite a b).mem = Memory.write s.mem (cellOf a) b := rfl

@[simp] theorem recorded_memWrite (s : State) (a : Word) (b : Byte) (d : ErrCond) :
    (s.memWrite a b).recorded d = (s.recorded d || (decide (d = .addr) && outOfRange a)) := by
  rw [← recorded_checkAddr, memWrite_eq]
  rfl

/-- The byte read after a write (R47). -/
@[simp] theorem readByte_memWrite (s : State) (a c : Word) (b : Byte) :
    (s.memWrite a b).readByte c = if cellOf c = cellOf a then b else s.readByte c := by
  simp [State.readByte]

/-- Cells of two element addresses less than 4096 apart differ (R151). -/
theorem cellOf_add_inj (a : Word) {j k : Nat} (hj : j < 4096) (hk : k < 4096)
    (h : cellOf (a + BitVec.ofNat 16 j) = cellOf (a + BitVec.ofNat 16 k)) : j = k := by
  simp only [cellOf, Config.memSize, BitVec.toNat_add, BitVec.toNat_ofNat] at h
  omega

/-! ### Framebuffer -/

@[simp] theorem pixel_flipPixel (s : State) (r r' : Fin 32) (c c' : Fin 64) :
    (s.flipPixel r c).pixel r' c' = (s.pixel r' c' ^^ (decide (r' = r) && decide (c' = c))) := by
  by_cases h : r' = r
  · subst h
    simp [State.pixel, Fin.ext_iff, eq_comm]
  · have : r.val ≠ r'.val := fun e => h (Fin.ext e.symm)
    simp [State.pixel, h, this]

@[simp] theorem pixel_setReg (s : State) (x : Nibble) (b : Byte) (r : Fin 32) (c : Fin 64) :
    (s.setReg x b).pixel r c = s.pixel r c := rfl

/-- The framebuffer is determined by its cells. -/
theorem fb_ext {s t : State} (h : ∀ r c, s.pixel r c = t.pixel r c) : s.fb = t.fb :=
  Vector.ext fun k hk => BitVec.eq_of_getLsbD_eq fun j hj => h ⟨k, hk⟩ ⟨j, hj⟩

end Sys2Proof.Machine
end

