-- ==== Sys2Proof/Laws/Bulk.lean ====
section
/-! SUPPORT. What the loops of `LD.STM` and `LD.LDM` do (R151, R152), by induction over the registers transferred. -/

namespace Sys2Proof.Machine

/-- The registers transferred are exactly `0..x`. -/
@[simp] theorem mem_nibblesUpTo (x k : Nibble) : k ∈ nibblesUpTo x ↔ k ≤ x := by
  have hall : ∀ k : Nibble, k ∈ nibbles := by decide
  simp [nibblesUpTo, hall]

/-- Each is transferred once. -/
theorem nodup_nibblesUpTo (x : Nibble) : (nibblesUpTo x).Nodup :=
  List.Nodup.filter _ (by decide)

/-- Storing one register: memory and `ERR` alone change. -/
theorem storeReg_eq (s : State) (k : Nibble) : storeReg s k =
    { s with mem := Memory.write s.mem (cellOf (s.elemAddress k.val)) (s.reg k), err := (s.checkAddr (s.elemAddress k.val)).err } :=
  memWrite_eq ..

/-- Two elements of one transfer never share a cell (R151). -/
theorem elemCell_inj (s : State) {j k : Nibble} (h : cellOf (s.elemAddress j.val) = cellOf (s.elemAddress k.val)) : j = k :=
  Fin.ext (cellOf_add_inj s.i (by omega) (by omega) h)

/-- A store of several registers. -/
theorem storeRegs_spec (l : List Nibble) (hl : l.Nodup) (s : State) :
    let t := l.foldl storeReg s
    (t = { s with mem := t.mem, err := t.err }) ∧
    (∀ k ∈ l, Memory.read t.mem (cellOf (s.elemAddress k.val)) = s.reg k) ∧
    (∀ c, (∀ k ∈ l, c ≠ cellOf (s.elemAddress k.val)) → Memory.read t.mem c = Memory.read s.mem c) ∧
    (∀ d, t.recorded d = true ↔ s.recorded d = true ∨ (d = .addr ∧ ∃ k ∈ l, outOfRange (s.elemAddress k.val) = true)) := by
  induction l generalizing s with
  | nil => simp
  | cons j l ih =>
    obtain ⟨hj, hl⟩ := List.nodup_cons.mp hl
    have ih := ih hl (storeReg s j)
    simp only [List.foldl_cons]
    generalize l.foldl storeReg (storeReg s j) = t at ih
    have hreg : ∀ k, (storeReg s j).reg k = s.reg k := fun k => by rw [storeReg_eq]; rfl
    have helem : ∀ k : Nat, (storeReg s j).elemAddress k = s.elemAddress k := fun k => by rw [storeReg_eq]; rfl
    have hmem : (storeReg s j).mem = Memory.write s.mem (cellOf (s.elemAddress j.val)) (s.reg j) := rfl
    simp only [hreg, helem, hmem, Memory.read_write] at ih
    obtain ⟨h1, h2, h3, h4⟩ := ih
    refine ⟨?_, fun k hk => ?_, fun c hc => ?_, fun d => ?_⟩
    · rw [storeReg_eq] at h1
      exact h1
    · rcases List.mem_cons.mp hk with rfl | hk
      · rw [h3 _ fun i hi h => hj (by rwa [elemCell_inj s h]), if_pos rfl]
      · exact h2 k hk
    · rw [h3 c fun k hk => hc k (by simp [hk]), if_neg (hc j (by simp))]
    · rw [h4, storeReg, recorded_memWrite]
      simp only [Bool.or_eq_true, Bool.and_eq_true, decide_eq_true_eq, List.mem_cons, exists_eq_or_imp]
      tauto

/-- A load of several registers. -/
theorem loadRegs_spec (l : List Nibble) (s : State) :
    let t := l.foldl loadReg s
    (t = { s with v := t.v, err := t.err }) ∧
    (∀ k, t.reg k = if k ∈ l then s.readByte (s.elemAddress k.val) else s.reg k) ∧
    (∀ d, t.recorded d = true ↔ s.recorded d = true ∨ (d = .addr ∧ ∃ k ∈ l, outOfRange (s.elemAddress k.val) = true)) := by
  induction l generalizing s with
  | nil => simp
  | cons j l ih =>
    have ih := ih (loadReg s j)
    simp only [List.foldl_cons]
    generalize l.foldl loadReg (loadReg s j) = t at ih
    have hload : loadReg s j = { s with
        v := (s.setReg j (s.readByte (s.elemAddress j.val))).v, err := (s.checkAddr (s.elemAddress j.val)).err } := by
      rw [loadReg, State.memRead, checkAddr_eq]
      rfl
    have hreg : ∀ k, (loadReg s j).reg k = if j = k then s.readByte (s.elemAddress j.val) else s.reg k := fun k => by
      rw [← reg_setReg, hload]; rfl
    have helem : ∀ k : Nat, (loadReg s j).elemAddress k = s.elemAddress k := fun k => by rw [hload]; rfl
    have hbyte : ∀ a, (loadReg s j).readByte a = s.readByte a := fun a => by rw [hload]; rfl
    have hrec : ∀ d, (loadReg s j).recorded d = (s.checkAddr (s.elemAddress j.val)).recorded d := fun d => by
      rw [hload]; rfl
    simp only [hreg, helem, hbyte, hrec, recorded_checkAddr] at ih
    obtain ⟨h1, h2, h3⟩ := ih
    refine ⟨?_, fun k => ?_, fun d => ?_⟩
    · rw [hload] at h1
      exact h1
    · rw [h2]
      by_cases hkl : k ∈ l
      · simp [hkl]
      · by_cases hjk : j = k
        · simp [hjk]
        · simp [hkl, hjk, Ne.symm hjk]
    · rw [h3]
      simp only [Bool.or_eq_true, Bool.and_eq_true, decide_eq_true_eq, List.mem_cons, exists_eq_or_imp]
      tauto

end Sys2Proof.Machine
end

