-- ==== Sys2Proof/Laws/Decode.lean ====
section
/-! SUPPORT. The fields of a word as numbers (R62), the words of the formats as numbers (R61), and that the fields of a word
built by a format are the ones it was built from. -/

namespace Sys2Proof

/-! ### Fields as numbers -/

theorem fieldOp_val (w : Word) : (fieldOp w).val = w.toNat / 4096 % 16 := by
  simp [fieldOp, Nat.shiftRight_eq_div_pow]

theorem fieldX_val (w : Word) : (fieldX w).val = w.toNat / 256 % 16 := by
  simp [fieldX, Nat.shiftRight_eq_div_pow]

theorem fieldY_val (w : Word) : (fieldY w).val = w.toNat / 16 % 16 := by
  simp [fieldY, Nat.shiftRight_eq_div_pow]

theorem fieldN_val (w : Word) : (fieldN w).val = w.toNat % 16 := by
  simp [fieldN]

theorem fieldKK_toNat (w : Word) : (fieldKK w).toNat = w.toNat % 256 := by
  simp [fieldKK, BitVec.extractLsb'_toNat]

theorem fieldNNN_toNat (w : Word) : (fieldNNN w).toNat = w.toNat % 4096 := by
  simp [fieldNNN, BitVec.extractLsb'_toNat]

theorem highByte_toNat (w : Word) : (highByte w).toNat = w.toNat / 256 := by
  simp only [highByte, BitVec.extractLsb'_toNat, Nat.shiftRight_eq_div_pow]
  have := w.isLt
  omega

theorem lowByte_toNat (w : Word) : (lowByte w).toNat = w.toNat % 256 := by
  simp [lowByte, BitVec.extractLsb'_toNat]

/-! ### Words as numbers -/

/-- Appending is multiplying and adding. -/
theorem toNat_append_add {m n : Nat} (a : BitVec m) (b : BitVec n) : (a ++ b).toNat = a.toNat * 2 ^ n + b.toNat := by
  rw [BitVec.toNat_append, ← Nat.shiftLeft_add_eq_or_of_lt b.isLt, Nat.shiftLeft_eq]

theorem formA_toNat (op : BitVec 4) (nnn : Addr) : (formA op nnn).toNat = op.toNat * 4096 + nnn.toNat :=
  toNat_append_add op nnn

theorem formXK_toNat (op : BitVec 4) (x : Nibble) (kk : Byte) :
    (formXK op x kk).toNat = op.toNat * 4096 + (x.val * 256 + kk.toNat) := by
  refine (toNat_append_add op _).trans ?_
  rw [toNat_append_add]
  rfl

theorem formXYN_toNat (op : BitVec 4) (x y n : Nibble) :
    (formXYN op x y n).toNat = op.toNat * 4096 + (x.val * 256 + (y.val * 16 + n.val)) := by
  refine (toNat_append_add op _).trans ?_
  rw [toNat_append_add, toNat_append_add]
  rfl

theorem joinBytes_toNat (hi lo : Byte) : (joinBytes hi lo).toNat = hi.toNat * 256 + lo.toNat := by
  have hl := lo.isLt
  have hh := hi.isLt
  have h8 : hi.toNat <<< 8 = hi.toNat * 256 := by rw [Nat.shiftLeft_eq]
  simp only [joinBytes, BitVec.toNat_or, BitVec.toNat_shiftLeft, BitVec.toNat_setWidth]
  rw [Nat.mod_eq_of_lt (a := hi.toNat) (by omega), Nat.mod_eq_of_lt (a := lo.toNat) (by omega),
    Nat.mod_eq_of_lt (a := hi.toNat <<< 8) (by omega), ← Nat.shiftLeft_add_eq_or_of_lt (by omega), h8]

/-! ### Fields of the formats -/

@[simp] theorem fieldOp_formA (op : BitVec 4) (nnn : Addr) : (fieldOp (formA op nnn)).val = op.toNat := by
  rw [fieldOp_val, formA_toNat]
  omega

@[simp] theorem fieldNNN_formA (op : BitVec 4) (nnn : Addr) : fieldNNN (formA op nnn) = nnn := by
  apply BitVec.eq_of_toNat_eq
  rw [fieldNNN_toNat, formA_toNat]
  omega

@[simp] theorem fieldOp_formXK (op : BitVec 4) (x : Nibble) (kk : Byte) : (fieldOp (formXK op x kk)).val = op.toNat := by
  rw [fieldOp_val, formXK_toNat]
  omega

@[simp] theorem fieldX_formXK (op : BitVec 4) (x : Nibble) (kk : Byte) : fieldX (formXK op x kk) = x := by
  apply Fin.ext
  rw [fieldX_val, formXK_toNat]
  omega

@[simp] theorem fieldKK_formXK (op : BitVec 4) (x : Nibble) (kk : Byte) : fieldKK (formXK op x kk) = kk := by
  apply BitVec.eq_of_toNat_eq
  rw [fieldKK_toNat, formXK_toNat]
  omega

@[simp] theorem fieldOp_formXYN (op : BitVec 4) (x y n : Nibble) : (fieldOp (formXYN op x y n)).val = op.toNat := by
  rw [fieldOp_val, formXYN_toNat]
  omega

@[simp] theorem fieldX_formXYN (op : BitVec 4) (x y n : Nibble) : fieldX (formXYN op x y n) = x := by
  apply Fin.ext
  rw [fieldX_val, formXYN_toNat]
  omega

@[simp] theorem fieldY_formXYN (op : BitVec 4) (x y n : Nibble) : fieldY (formXYN op x y n) = y := by
  apply Fin.ext
  rw [fieldY_val, formXYN_toNat]
  omega

@[simp] theorem fieldN_formXYN (op : BitVec 4) (x y n : Nibble) : fieldN (formXYN op x y n) = n := by
  apply Fin.ext
  rw [fieldN_val, formXYN_toNat]
  omega

/-- A word is its bytes joined (R43). -/
@[simp] theorem joinBytes_highByte_lowByte (w : Word) : joinBytes (highByte w) (lowByte w) = w := by
  apply BitVec.eq_of_toNat_eq
  rw [joinBytes_toNat, highByte_toNat, lowByte_toNat]
  omega

/-- Two words with the same four nibbles are equal. -/
theorem word_ext {v w : Word} (ho : fieldOp v = fieldOp w) (hx : fieldX v = fieldX w) (hy : fieldY v = fieldY w)
    (hn : fieldN v = fieldN w) : v = w := by
  apply BitVec.eq_of_toNat_eq
  have h1 := congrArg Fin.val ho
  have h2 := congrArg Fin.val hx
  have h3 := congrArg Fin.val hy
  have h4 := congrArg Fin.val hn
  rw [fieldOp_val, fieldOp_val] at h1
  rw [fieldX_val, fieldX_val] at h2
  rw [fieldY_val, fieldY_val] at h3
  rw [fieldN_val, fieldN_val] at h4
  have := v.isLt
  have := w.isLt
  omega

/-- Every word is the four nibbles it is read as. -/
theorem formXYN_fields (w : Word) : formXYN (BitVec.ofFin (fieldOp w)) (fieldX w) (fieldY w) (fieldN w) = w :=
  word_ext (Fin.ext (by simp)) (by simp) (by simp) (by simp)

/-! ### Masks (R63) -/

/-- Masking nibble by nibble. -/
theorem mask_nibbles (a b c d a' b' c' d' : Nibble) :
    formXYN (BitVec.ofFin a) b c d &&& formXYN (BitVec.ofFin a') b' c' d' =
      formXYN (BitVec.ofFin a &&& BitVec.ofFin a') ((BitVec.ofFin b : BitVec 4) &&& BitVec.ofFin b').toFin
        ((BitVec.ofFin c : BitVec 4) &&& BitVec.ofFin c').toFin ((BitVec.ofFin d : BitVec 4) &&& BitVec.ofFin d').toFin := by
  unfold formXYN
  rw [BitVec.and_append, BitVec.and_append, BitVec.and_append]

/-- `0xF` keeps a nibble. -/
theorem and_F (a : BitVec 4) : a &&& 0xF = a := by
  simpa using BitVec.and_allOnes (x := a)

/-- What the mask of the formats `A`, `XK`, `XYN` keeps. -/
theorem mask_F000 (w : Word) : w &&& 0xF000 = formXYN (BitVec.ofFin (fieldOp w)) 0 0 0 := by
  conv_lhs => rw [← formXYN_fields w]
  refine (mask_nibbles (fieldOp w) (fieldX w) (fieldY w) (fieldN w) 15 0 0 0).trans ?_
  congr 1
  · exact and_F _
  all_goals (apply Fin.ext; simp)

/-- What the mask of the format `XY` keeps. -/
theorem mask_F00F (w : Word) : w &&& 0xF00F = formXYN (BitVec.ofFin (fieldOp w)) 0 0 (fieldN w) := by
  conv_lhs => rw [← formXYN_fields w]
  refine (mask_nibbles (fieldOp w) (fieldX w) (fieldY w) (fieldN w) 15 0 0 15).trans ?_
  congr 1
  · exact and_F _
  · apply Fin.ext; simp
  · apply Fin.ext; simp
  · exact congrArg BitVec.toFin (and_F _)

/-- What the mask of the format `X` keeps. -/
theorem mask_F0FF (w : Word) : w &&& 0xF0FF = formXYN (BitVec.ofFin (fieldOp w)) 0 (fieldY w) (fieldN w) := by
  conv_lhs => rw [← formXYN_fields w]
  refine (mask_nibbles (fieldOp w) (fieldX w) (fieldY w) (fieldN w) 15 0 15 15).trans ?_
  congr 1
  · exact and_F _
  · apply Fin.ext; simp
  · exact congrArg BitVec.toFin (and_F _)
  · exact congrArg BitVec.toFin (and_F _)

/-- What the mask of the format `Z` keeps. -/
theorem mask_FFFF (w : Word) : w &&& 0xFFFF = w := by
  simpa using BitVec.and_allOnes (x := w)

/-! ### Byte lists -/

/-- Two bytes decode as the word they form. -/
theorem decode_pair (hi lo : Byte) (rest : List Byte) :
    decode (hi :: lo :: rest) = (decodeWord (joinBytes hi lo)).map (fun i => (i, rest)) := by
  simp only [decode]
  cases decodeWord (joinBytes hi lo) <;> rfl

/-- Two bytes decode to an instruction exactly when the word they form does. -/
theorem decode_pair_ok (hi lo : Byte) (rest : List Byte) (i : Instr) :
    decode (hi :: lo :: rest) = .ok (i, rest) ↔ decodeWord (joinBytes hi lo) = .ok i := by
  rw [decode_pair]
  cases decodeWord (joinBytes hi lo) <;> simp [Except.map]

/-- Two bytes are rejected exactly when the word they form is, and for the same reason. -/
theorem decode_pair_error (hi lo : Byte) (rest : List Byte) (e : Reject) :
    decode (hi :: lo :: rest) = .error e ↔ decodeWord (joinBytes hi lo) = .error e := by
  rw [decode_pair]
  cases decodeWord (joinBytes hi lo) <;> simp [Except.map]

end Sys2Proof
end

