-- ==== Sys2Proof/Laws/Draw.lean ====
section
/-! SUPPORT. What drawing does, pixel by pixel and then as a whole picture (R130, R131). -/

namespace Sys2Proof.Machine

/-- Two tests with one outcome are one test. -/
theorem ite_ite_of_iff_or {α : Type} {p q r : Prop} [Decidable p] [Decidable q] [Decidable r] (a b : α)
    (h : r ↔ p ∨ q) : (if p then a else if q then a else b) = if r then a else b := by
  by_cases hp : p <;> by_cases hq : q <;> simp [h, hp, hq]

/-- One lit sprite bit: flip one cell; set `VF` when that cell was lit. -/
theorem drawPixel_eq (row : Fin 32) (col : Fin 64) (s : State) :
    drawPixel row col s = { s with
      fb := (s.flipPixel row col).fb
      v := (if s.pixel row col then s.setReg vF 1 else s).v } := by
  unfold drawPixel
  split <;> rfl

/-- What drawing leaves alone: everything but the framebuffer, the registers and `ERR`. -/
structure OnlyDrawn (s t : State) : Prop where
  rest : t = { s with fb := t.fb, v := t.v, err := t.err }

theorem OnlyDrawn.refl (s : State) : OnlyDrawn s s := ⟨rfl⟩

theorem OnlyDrawn.trans {s t u : State} (h : OnlyDrawn s t) (k : OnlyDrawn t u) : OnlyDrawn s u := by
  constructor
  have h := h.rest
  have k := k.rest
  cases s; cases t; cases u
  simp_all

theorem OnlyDrawn.of_drawPixel (row : Fin 32) (col : Fin 64) (s : State) : OnlyDrawn s (drawPixel row col s) := by
  constructor
  rw [drawPixel_eq]

theorem OnlyDrawn.of_checkAddr (s : State) (a : Word) : OnlyDrawn s (s.checkAddr a) := by
  constructor
  rw [checkAddr_eq]

@[simp] theorem drawPixel_err (row : Fin 32) (col : Fin 64) (s : State) : (drawPixel row col s).err = s.err := by
  rw [drawPixel_eq]

theorem OnlyDrawn.mem {s t : State} (h : OnlyDrawn s t) : t.mem = s.mem := by rw [h.rest]

theorem OnlyDrawn.i {s t : State} (h : OnlyDrawn s t) : t.i = s.i := by rw [h.rest]

theorem OnlyDrawn.readByte {s t : State} (h : OnlyDrawn s t) (a : Word) : t.readByte a = s.readByte a := by
  simp [State.readByte, h.mem]

/-- The distance of a column from the start column is the number of steps to it. -/
theorem col_sub_eq (x0 c : Fin 64) {k : Nat} (hk : k < 64) : c = x0 + Fin.ofNat 64 k ↔ (c - x0).val = k := by
  rw [Fin.ext_iff, Fin.val_add, Fin.sub_def]
  simp only [Fin.val_ofNat]
  have := x0.isLt
  have := c.isLt
  omega

/-- The distance of a row from the start row is the number of steps to it. -/
theorem row_sub_eq (y0 r : Fin 32) {k : Nat} (hk : k < 32) : r = y0 + Fin.ofNat 32 k ↔ (r - y0).val = k := by
  rw [Fin.ext_iff, Fin.val_add, Fin.sub_def]
  simp only [Fin.val_ofNat]
  have := y0.isLt
  have := r.isLt
  omega

/-- The first `k` columns of one sprite row. -/
theorem drawBits_spec (b : Byte) (row : Fin 32) (x0 : Fin 64) (s : State) {k : Nat} (hk : k ≤ 8) :
    let t := (List.range k).foldl (drawBit b row x0) s
    (OnlyDrawn s t ∧ t.err = s.err) ∧
    (∀ r c, t.pixel r c = (s.pixel r c ^^ (decide (r = row) && (decide ((c - x0).val < k) && b.getLsbD (7 - (c - x0).val))))) ∧
    (∀ y, t.reg y = if y = vF ∧ ∃ j, j < k ∧ b.getLsbD (7 - j) = true ∧ s.pixel row (x0 + Fin.ofNat 64 j) = true
      then 1 else s.reg y) := by
  induction k with
  | zero => simp [OnlyDrawn.refl]
  | succ k ih =>
    obtain ⟨ih1, ih2, ih3⟩ := ih (by omega)
    simp only [List.range_succ, List.foldl_append, List.foldl_cons, List.foldl_nil]
    generalize (List.range k).foldl (drawBit b row x0) s = t at ih1 ih2 ih3
    have hself : ((x0 + Fin.ofNat 64 k) - x0).val = k := (col_sub_eq x0 _ (by omega)).mp rfl
    have hbefore : t.pixel row (x0 + Fin.ofNat 64 k) = s.pixel row (x0 + Fin.ofNat 64 k) := by
      rw [ih2, hself]
      simp
    unfold drawBit
    by_cases hb : b.getLsbD (7 - k) = true
    · simp only [hb, if_true]
      refine ⟨?_, fun r c => ?_, fun y => ?_⟩
      · exact ⟨ih1.1.trans (.of_drawPixel ..), by rw [drawPixel_err, ih1.2]⟩
      · rw [drawPixel]
        have hcell := col_sub_eq x0 c (k := k) (by omega)
        have hmid : (if t.pixel row (x0 + Fin.ofNat 64 k) = true then t.setReg vF 1 else t).pixel r c = t.pixel r c := by
          split <;> rfl
        rw [pixel_flipPixel, hmid, ih2, Bool.xor_assoc]
        congr 1
        generalize x0 + Fin.ofNat 64 k = p at hcell hself
        by_cases hr : r = row
        · by_cases hc : (c - x0).val = k
          · simp [hr, hcell.mpr hc, hself, hb]
          · have : ¬ c = p := fun e => hc (hcell.mp e)
            have hlt : (c - x0).val < k + 1 ↔ (c - x0).val < k := by omega
            simp [hr, this, hlt]
        · simp [hr]
      · rw [drawPixel, reg_flipPixel, hbefore]
        by_cases hp : s.pixel row (x0 + Fin.ofNat 64 k) = true
        · simp only [hp, if_true, reg_setReg, ih3]
          by_cases hy : y = vF
          · have : ∃ j, j < k + 1 ∧ b.getLsbD (7 - j) = true ∧ s.pixel row (x0 + Fin.ofNat 64 j) = true :=
              ⟨k, by omega, hb, hp⟩
            simp only [hy, true_and, if_true, if_pos this]
          · have hy' : ¬ vF = y := fun e => hy e.symm
            simp only [hy, hy', false_and, if_false]
        · simp only [hp]
          have hiff : (∃ j, j < k + 1 ∧ b.getLsbD (7 - j) = true ∧ s.pixel row (x0 + Fin.ofNat 64 j) = true) ↔
              ∃ j, j < k ∧ b.getLsbD (7 - j) = true ∧ s.pixel row (x0 + Fin.ofNat 64 j) = true := by
            constructor
            · rintro ⟨j, hj, h1, h2⟩
              have : j ≠ k := fun e => hp (by rw [← e]; exact h2)
              exact ⟨j, by omega, h1, h2⟩
            · rintro ⟨j, hj, h⟩
              exact ⟨j, by omega, h⟩
          simp only [hiff, Bool.false_eq_true, if_false, ih3]
    · simp only [hb]
      refine ⟨ih1, fun r c => ?_, fun y => ?_⟩
      · rw [if_neg (by simp), ih2]
        congr 2
        by_cases hc : (c - x0).val = k
        · simp [hc, hb]
        · have hlt : (c - x0).val < k + 1 ↔ (c - x0).val < k := by omega
          simp [hlt]
      · rw [if_neg (by simp), ih3]
        have hiff : (∃ j, j < k + 1 ∧ b.getLsbD (7 - j) = true ∧ s.pixel row (x0 + Fin.ofNat 64 j) = true) ↔
            ∃ j, j < k ∧ b.getLsbD (7 - j) = true ∧ s.pixel row (x0 + Fin.ofNat 64 j) = true := by
          constructor
          · rintro ⟨j, hj, h1, h2⟩
            have : j ≠ k := fun e => hb (by rw [← e]; exact h1)
            exact ⟨j, by omega, h1, h2⟩
          · rintro ⟨j, hj, h⟩
            exact ⟨j, by omega, h⟩
        simp only [hiff]

/-- One sprite row, as a picture. -/
theorem drawByte_spec (b : Byte) (row : Fin 32) (x0 : Fin 64) (s : State) :
    let t := drawByte b row x0 s
    (OnlyDrawn s t ∧ t.err = s.err) ∧
    (∀ r c, t.pixel r c = (s.pixel r c ^^ (decide (r = row) && (decide ((c - x0).val < 8) && b.getLsbD (7 - (c - x0).val))))) ∧
    (∀ y, t.reg y = if y = vF ∧ ∃ c, (c - x0).val < 8 ∧ b.getLsbD (7 - (c - x0).val) = true ∧ s.pixel row c = true
      then 1 else s.reg y) := by
  obtain ⟨h1, h2, h3⟩ := drawBits_spec b row x0 s (Nat.le_refl 8)
  refine ⟨h1, h2, fun y => ?_⟩
  rw [drawByte, h3]
  have hiff : (∃ j, j < 8 ∧ b.getLsbD (7 - j) = true ∧ s.pixel row (x0 + Fin.ofNat 64 j) = true) ↔
      ∃ c, (c - x0).val < 8 ∧ b.getLsbD (7 - (c - x0).val) = true ∧ s.pixel row c = true := by
    constructor
    · rintro ⟨j, hj, hb, hp⟩
      have : ((x0 + Fin.ofNat 64 j) - x0).val = j := (col_sub_eq x0 _ (by omega)).mp rfl
      exact ⟨x0 + Fin.ofNat 64 j, by omega, by rwa [this], hp⟩
    · rintro ⟨c, hc, hb, hp⟩
      have : c = x0 + Fin.ofNat 64 (c - x0).val := (col_sub_eq x0 c (by omega)).mpr rfl
      exact ⟨(c - x0).val, hc, hb, by rwa [← this]⟩
  simp only [hiff]

/-- The first `n` sprite rows, as a picture: the cells under set bits are inverted, `VF` is set when one of them was lit,
`ADDR` is recorded when a byte's address lies above `0x0FFF`, and nothing else changes. -/
theorem drawSprite_spec (x0 : Fin 64) (y0 : Fin 32) (s : State) {n : Nat} (hn : n ≤ 32) :
    let t := drawSprite x0 y0 n s
    OnlyDrawn s t ∧
    (∀ r c, t.pixel r c = (s.pixel r c ^^ spriteBit s x0 y0 n r c)) ∧
    (∀ y, t.reg y = if y = vF ∧ ∃ r c, spriteBit s x0 y0 n r c = true ∧ s.pixel r c = true then 1 else s.reg y) ∧
    (∀ d, t.recorded d = true ↔
      s.recorded d = true ∨ (d = .addr ∧ ∃ k, k < n ∧ outOfRange (s.elemAddress k) = true)) := by
  induction n with
  | zero => simp [drawSprite, spriteBit, OnlyDrawn.refl]
  | succ n ih =>
    obtain ⟨ih1, ih2, ih3, ih4⟩ := ih (by omega)
    have hsplit : drawSprite x0 y0 (n + 1) s = drawRow x0 y0 (drawSprite x0 y0 n s) n := by
      simp [drawSprite, List.range_succ]
    rw [hsplit]
    generalize drawSprite x0 y0 n s = t at ih1 ih2 ih3 ih4
    have haddr : t.elemAddress n = s.elemAddress n := by simp [State.elemAddress, ih1.i]
    have hbyte : (t.memRead (t.elemAddress n)).1 = s.readByte (s.elemAddress n) := by
      rw [haddr]; exact ih1.readByte _
    have hst : (t.memRead (t.elemAddress n)).2 = t.checkAddr (s.elemAddress n) := by rw [haddr]; rfl
    unfold drawRow
    rw [hbyte, hst]
    obtain ⟨d1, d2, d3⟩ := drawByte_spec (s.readByte (s.elemAddress n)) (y0 + Fin.ofNat 32 n) x0 (t.checkAddr (s.elemAddress n))
    have hpix : ∀ r c, (t.checkAddr (s.elemAddress n)).pixel r c = t.pixel r c := by
      intro r c; rw [checkAddr_eq]; rfl
    have hreg : ∀ y, (t.checkAddr (s.elemAddress n)).reg y = t.reg y := by
      intro y; rw [checkAddr_eq]; rfl
    generalize drawByte (s.readByte (s.elemAddress n)) (y0 + Fin.ofNat 32 n) x0 (t.checkAddr (s.elemAddress n)) = u at d1 d2 d3
    have hrow := fun r => row_sub_eq y0 r (k := n) (by omega)
    have hmine : ∀ r c, spriteBit s x0 y0 (n + 1) r c = (spriteBit s x0 y0 n r c ||
        (decide (r = y0 + Fin.ofNat 32 n) && (decide ((c - x0).val < 8) &&
          (s.readByte (s.elemAddress n)).getLsbD (7 - (c - x0).val)))) := by
      intro r c
      unfold spriteBit
      have hrow := hrow r
      generalize y0 + Fin.ofNat 32 n = q at hrow
      by_cases hr : r = q
      · have := hrow.mp hr
        simp [hr, hr ▸ this]
      · have hne : (r - y0).val ≠ n := fun e => hr (hrow.mpr e)
        have hlt : (r - y0).val < n + 1 ↔ (r - y0).val < n := by omega
        simp [hr, hlt]
    have hfresh : ∀ c, spriteBit s x0 y0 n (y0 + Fin.ofNat 32 n) c = false := by
      intro c
      rw [spriteBit, (hrow _).mp rfl]
      simp
    refine ⟨(ih1.trans (.of_checkAddr ..)).trans d1.1, fun r c => ?_, fun y => ?_, fun d => ?_⟩
    · rw [d2, hpix, ih2, hmine, Bool.xor_assoc]
      congr 1
      by_cases hr : r = y0 + Fin.ofNat 32 n
      · rw [hr, hfresh]; simp
      · rw [decide_eq_false hr]; simp
    · rw [d3, hreg, ih3]
      have hcell : ∀ c, (t.checkAddr (s.elemAddress n)).pixel (y0 + Fin.ofNat 32 n) c = s.pixel (y0 + Fin.ofNat 32 n) c := by
        intro c; rw [hpix, ih2, hfresh]; simp
      simp only [hcell]
      have hiff : (∃ r c, spriteBit s x0 y0 (n + 1) r c = true ∧ s.pixel r c = true) ↔
          (∃ c, (c - x0).val < 8 ∧ (s.readByte (s.elemAddress n)).getLsbD (7 - (c - x0).val) = true ∧
            s.pixel (y0 + Fin.ofNat 32 n) c = true) ∨ (∃ r c, spriteBit s x0 y0 n r c = true ∧ s.pixel r c = true) := by
        constructor
        · rintro ⟨r, c, hb, hp⟩
          rw [hmine, Bool.or_eq_true] at hb
          rcases hb with hb | hb
          · exact .inr ⟨r, c, hb, hp⟩
          · simp only [Bool.and_eq_true, decide_eq_true_eq] at hb
            exact .inl ⟨c, hb.2.1, hb.2.2, hb.1 ▸ hp⟩
        · rintro (⟨c, hc, hb, hp⟩ | ⟨r, c, hb, hp⟩)
          · exact ⟨_, c, by simp [hmine, hc, hb], hp⟩
          · exact ⟨r, c, by simp [hmine, hb], hp⟩
      exact ite_ite_of_iff_or 1 (s.reg y) (by rw [hiff, ← and_or_left])
    · have herr : u.recorded d = (t.checkAddr (s.elemAddress n)).recorded d :=
        recorded_congr d1.2 d
      rw [herr, recorded_checkAddr, Bool.or_eq_true, ih4]
      simp only [Bool.and_eq_true, decide_eq_true_eq]
      constructor
      · rintro ((h | ⟨hd, k, hk, ho⟩) | ⟨hd, ho⟩)
        · exact .inl h
        · exact .inr ⟨hd, k, by omega, ho⟩
        · exact .inr ⟨hd, n, by omega, ho⟩
      · rintro (h | ⟨hd, k, hk, ho⟩)
        · exact .inl (.inl h)
        · by_cases hkn : k = n
          · exact .inr ⟨hd, hkn ▸ ho⟩
          · exact .inl (.inr ⟨hd, k, by omega, ho⟩)

end Sys2Proof.Machine
end

