-- ==== Sys2Proof/Laws/PerInstr.lean ====
section
/-! SUPPORT. For every instruction: its word selects its own row of the opcode map (R63, R64). -/

namespace Sys2Proof.Laws.EncodesItsRow

/-- The word of `i` selects a row of the opcode map that carries `i`'s mnemonic. -/
def Statement (i : Instr) : Prop := ∃ r ∈ opcodeTable, r.mnemonic = i.mnemonic ∧ r.selectedBy (encode i) = true

/-- A word selects a row with a fixed top nibble when it has that nibble. -/
theorem selected_top (m : String) (op : BitVec 4) {w : Word} (h : (fieldOp w).val = op.toNat) :
    (OpcodeRow.mk m (formXYN op 0 0 0) 0xF000).selectedBy w = true := by
  have : fieldOp w = op.toFin := Fin.ext h
  rw [OpcodeRow.selectedBy, beq_iff_eq, mask_F000, this]

/-- A word selects a row with fixed top and low nibbles when it has them. -/
theorem selected_xy (m : String) (op : BitVec 4) (n : Nibble) {w : Word} (h : (fieldOp w).val = op.toNat)
    (hn : fieldN w = n) : (OpcodeRow.mk m (formXYN op 0 0 n) 0xF00F).selectedBy w = true := by
  have : fieldOp w = op.toFin := Fin.ext h
  rw [OpcodeRow.selectedBy, beq_iff_eq, mask_F00F, this, hn]

/-- A word selects a row with a fixed top nibble and low byte when it has them. -/
theorem selected_x (m : String) (op : BitVec 4) (y n : Nibble) {w : Word} (h : (fieldOp w).val = op.toNat)
    (hy : fieldY w = y) (hn : fieldN w = n) : (OpcodeRow.mk m (formXYN op 0 y n) 0xF0FF).selectedBy w = true := by
  have : fieldOp w = op.toFin := Fin.ext h
  rw [OpcodeRow.selectedBy, beq_iff_eq, mask_F0FF, this, hy, hn]

/-- The middle nibble of a word of format `X`. -/
theorem fieldY_formX (op : BitVec 4) (x : Nibble) (sub : Byte) : (fieldY (formX op x sub)).val = sub.toNat / 16 := by
  rw [fieldY_val, formX, formXK_toNat]
  omega

/-- The low nibble of a word of format `X`. -/
theorem fieldN_formX (op : BitVec 4) (x : Nibble) (sub : Byte) : (fieldN (formX op x sub)).val = sub.toNat % 16 := by
  rw [fieldN_val, formX, formXK_toNat]
  omega

theorem cls : Statement .cls :=
  ⟨⟨"CLS", 0x00E0, 0xFFFF⟩, by simp [opcodeTable, opcodeRowsPlain], rfl, by decide⟩

theorem ret : Statement .ret :=
  ⟨⟨"RET", 0x00EE, 0xFFFF⟩, by simp [opcodeTable, opcodeRowsPlain], rfl, by decide⟩

theorem jp (nnn : Addr) : Statement (.jp nnn) :=
  ⟨⟨"JP", 0x1000, 0xF000⟩, by simp [opcodeTable, opcodeRowsPlain], rfl, selected_top _ 0x1 (fieldOp_formA ..)⟩

theorem call (nnn : Addr) : Statement (.call nnn) :=
  ⟨⟨"CALL", 0x2000, 0xF000⟩, by simp [opcodeTable, opcodeRowsPlain], rfl, selected_top _ 0x2 (fieldOp_formA ..)⟩

theorem seB (x : Nibble) (kk : Byte) : Statement (.seB x kk) :=
  ⟨⟨"SE.B", 0x3000, 0xF000⟩, by simp [opcodeTable, opcodeRowsPlain], rfl, selected_top _ 0x3 (fieldOp_formXK ..)⟩

theorem sneB (x : Nibble) (kk : Byte) : Statement (.sneB x kk) :=
  ⟨⟨"SNE.B", 0x4000, 0xF000⟩, by simp [opcodeTable, opcodeRowsPlain], rfl, selected_top _ 0x4 (fieldOp_formXK ..)⟩

theorem seR (x y : Nibble) : Statement (.seR x y) :=
  ⟨⟨"SE.R", 0x5000, 0xF00F⟩, by simp [opcodeTable, opcodeRowsXY], rfl,
    selected_xy _ 0x5 0x0 (fieldOp_formXYN ..) (fieldN_formXYN ..)⟩

theorem ldB (x : Nibble) (kk : Byte) : Statement (.ldB x kk) :=
  ⟨⟨"LD.B", 0x6000, 0xF000⟩, by simp [opcodeTable, opcodeRowsPlain], rfl, selected_top _ 0x6 (fieldOp_formXK ..)⟩

theorem addB (x : Nibble) (kk : Byte) : Statement (.addB x kk) :=
  ⟨⟨"ADD.B", 0x7000, 0xF000⟩, by simp [opcodeTable, opcodeRowsPlain], rfl, selected_top _ 0x7 (fieldOp_formXK ..)⟩

theorem ldR (x y : Nibble) : Statement (.ldR x y) :=
  ⟨⟨"LD.R", 0x8000, 0xF00F⟩, by simp [opcodeTable, opcodeRowsXY], rfl,
    selected_xy _ 0x8 0x0 (fieldOp_formXYN ..) (fieldN_formXYN ..)⟩

theorem orR (x y : Nibble) : Statement (.orR x y) :=
  ⟨⟨"OR", 0x8001, 0xF00F⟩, by simp [opcodeTable, opcodeRowsXY], rfl,
    selected_xy _ 0x8 0x1 (fieldOp_formXYN ..) (fieldN_formXYN ..)⟩

theorem andR (x y : Nibble) : Statement (.andR x y) :=
  ⟨⟨"AND", 0x8002, 0xF00F⟩, by simp [opcodeTable, opcodeRowsXY], rfl,
    selected_xy _ 0x8 0x2 (fieldOp_formXYN ..) (fieldN_formXYN ..)⟩

theorem xorR (x y : Nibble) : Statement (.xorR x y) :=
  ⟨⟨"XOR", 0x8003, 0xF00F⟩, by simp [opcodeTable, opcodeRowsXY], rfl,
    selected_xy _ 0x8 0x3 (fieldOp_formXYN ..) (fieldN_formXYN ..)⟩

theorem addR (x y : Nibble) : Statement (.addR x y) :=
  ⟨⟨"ADD.R", 0x8004, 0xF00F⟩, by simp [opcodeTable, opcodeRowsXY], rfl,
    selected_xy _ 0x8 0x4 (fieldOp_formXYN ..) (fieldN_formXYN ..)⟩

theorem sub (x y : Nibble) : Statement (.sub x y) :=
  ⟨⟨"SUB", 0x8005, 0xF00F⟩, by simp [opcodeTable, opcodeRowsXY], rfl,
    selected_xy _ 0x8 0x5 (fieldOp_formXYN ..) (fieldN_formXYN ..)⟩

theorem shr (x y : Nibble) : Statement (.shr x y) :=
  ⟨⟨"SHR", 0x8006, 0xF00F⟩, by simp [opcodeTable, opcodeRowsXY], rfl,
    selected_xy _ 0x8 0x6 (fieldOp_formXYN ..) (fieldN_formXYN ..)⟩

theorem subn (x y : Nibble) : Statement (.subn x y) :=
  ⟨⟨"SUBN", 0x8007, 0xF00F⟩, by simp [opcodeTable, opcodeRowsXY], rfl,
    selected_xy _ 0x8 0x7 (fieldOp_formXYN ..) (fieldN_formXYN ..)⟩

theorem shl (x y : Nibble) : Statement (.shl x y) :=
  ⟨⟨"SHL", 0x800E, 0xF00F⟩, by simp [opcodeTable, opcodeRowsXY], rfl,
    selected_xy _ 0x8 0xE (fieldOp_formXYN ..) (fieldN_formXYN ..)⟩

theorem sneR (x y : Nibble) : Statement (.sneR x y) :=
  ⟨⟨"SNE.R", 0x9000, 0xF00F⟩, by simp [opcodeTable, opcodeRowsXY], rfl,
    selected_xy _ 0x9 0x0 (fieldOp_formXYN ..) (fieldN_formXYN ..)⟩

theorem ldI (nnn : Addr) : Statement (.ldI nnn) :=
  ⟨⟨"LD.I", 0xA000, 0xF000⟩, by simp [opcodeTable, opcodeRowsPlain], rfl, selected_top _ 0xA (fieldOp_formA ..)⟩

theorem jpV0 (nnn : Addr) : Statement (.jpV0 nnn) :=
  ⟨⟨"JP.V0", 0xB000, 0xF000⟩, by simp [opcodeTable, opcodeRowsPlain], rfl, selected_top _ 0xB (fieldOp_formA ..)⟩

theorem rnd (x : Nibble) (kk : Byte) : Statement (.rnd x kk) :=
  ⟨⟨"RND", 0xC000, 0xF000⟩, by simp [opcodeTable, opcodeRowsPlain], rfl, selected_top _ 0xC (fieldOp_formXK ..)⟩

theorem drw (x y n : Nibble) : Statement (.drw x y n) :=
  ⟨⟨"DRW", 0xD000, 0xF000⟩, by simp [opcodeTable, opcodeRowsPlain], rfl, selected_top _ 0xD (fieldOp_formXYN ..)⟩

theorem skp (x : Nibble) : Statement (.skp x) :=
  ⟨⟨"SKP", 0xE09E, 0xF0FF⟩, by simp [opcodeTable, opcodeRowsX], rfl,
    selected_x _ 0xE 0x9 0xE (fieldOp_formXK ..) (Fin.ext (fieldY_formX ..)) (Fin.ext (fieldN_formX ..))⟩

theorem sknp (x : Nibble) : Statement (.sknp x) :=
  ⟨⟨"SKNP", 0xE0A1, 0xF0FF⟩, by simp [opcodeTable, opcodeRowsX], rfl,
    selected_x _ 0xE 0xA 0x1 (fieldOp_formXK ..) (Fin.ext (fieldY_formX ..)) (Fin.ext (fieldN_formX ..))⟩

theorem ldGdt (x : Nibble) : Statement (.ldGdt x) :=
  ⟨⟨"LD.GDT", 0xF007, 0xF0FF⟩, by simp [opcodeTable, opcodeRowsX], rfl,
    selected_x _ 0xF 0x0 0x7 (fieldOp_formXK ..) (Fin.ext (fieldY_formX ..)) (Fin.ext (fieldN_formX ..))⟩

theorem ldK (x : Nibble) : Statement (.ldK x) :=
  ⟨⟨"LD.K", 0xF00A, 0xF0FF⟩, by simp [opcodeTable, opcodeRowsX], rfl,
    selected_x _ 0xF 0x0 0xA (fieldOp_formXK ..) (Fin.ext (fieldY_formX ..)) (Fin.ext (fieldN_formX ..))⟩

theorem ldSdt (x : Nibble) : Statement (.ldSdt x) :=
  ⟨⟨"LD.SDT", 0xF015, 0xF0FF⟩, by simp [opcodeTable, opcodeRowsX], rfl,
    selected_x _ 0xF 0x1 0x5 (fieldOp_formXK ..) (Fin.ext (fieldY_formX ..)) (Fin.ext (fieldN_formX ..))⟩

theorem ldSt (x : Nibble) : Statement (.ldSt x) :=
  ⟨⟨"LD.ST", 0xF018, 0xF0FF⟩, by simp [opcodeTable, opcodeRowsX], rfl,
    selected_x _ 0xF 0x1 0x8 (fieldOp_formXK ..) (Fin.ext (fieldY_formX ..)) (Fin.ext (fieldN_formX ..))⟩

theorem addI (x : Nibble) : Statement (.addI x) :=
  ⟨⟨"ADD.I", 0xF01E, 0xF0FF⟩, by simp [opcodeTable, opcodeRowsX], rfl,
    selected_x _ 0xF 0x1 0xE (fieldOp_formXK ..) (Fin.ext (fieldY_formX ..)) (Fin.ext (fieldN_formX ..))⟩

theorem ldF (x : Nibble) : Statement (.ldF x) :=
  ⟨⟨"LD.F", 0xF029, 0xF0FF⟩, by simp [opcodeTable, opcodeRowsX], rfl,
    selected_x _ 0xF 0x2 0x9 (fieldOp_formXK ..) (Fin.ext (fieldY_formX ..)) (Fin.ext (fieldN_formX ..))⟩

theorem ldBcd (x : Nibble) : Statement (.ldBcd x) :=
  ⟨⟨"LD.BCD", 0xF033, 0xF0FF⟩, by simp [opcodeTable, opcodeRowsX], rfl,
    selected_x _ 0xF 0x3 0x3 (fieldOp_formXK ..) (Fin.ext (fieldY_formX ..)) (Fin.ext (fieldN_formX ..))⟩

theorem ldStm (x : Nibble) : Statement (.ldStm x) :=
  ⟨⟨"LD.STM", 0xF055, 0xF0FF⟩, by simp [opcodeTable, opcodeRowsX], rfl,
    selected_x _ 0xF 0x5 0x5 (fieldOp_formXK ..) (Fin.ext (fieldY_formX ..)) (Fin.ext (fieldN_formX ..))⟩

theorem ldLdm (x : Nibble) : Statement (.ldLdm x) :=
  ⟨⟨"LD.LDM", 0xF065, 0xF0FF⟩, by simp [opcodeTable, opcodeRowsX], rfl,
    selected_x _ 0xF 0x6 0x5 (fieldOp_formXK ..) (Fin.ext (fieldY_formX ..)) (Fin.ext (fieldN_formX ..))⟩

end Sys2Proof.Laws.EncodesItsRow
end

