-- ==== Sys2Proof/Laws/Step.lean ====
section
/-! SUPPORT. The step taken apart once: what each phase changes, and the two cases a step has. -/

namespace Sys2Proof.Machine

/-! ### Phases -/

/-- What precedes the fetch touches the tick latch and the output pulse alone. -/
theorem beginStep_eq (s : State) : beginStep s = { s with tickP := s.tickP || s.nowInputs.tick, fbChanged := false } := rfl

@[simp] theorem fetchWord_beginStep (s : State) : fetchWord (beginStep s) = fetchWord s := rfl

@[simp] theorem mode_beginStep (s : State) : (beginStep s).mode = s.mode := rfl

/-- The fetch changes `IR`, `PC` and `ERR` alone. -/
theorem fetch_eq (s : State) : fetch s = { s with
    ir := fetchWord s, pc := s.pc + 2, err := ((s.checkAddr s.pc).checkAddr (s.pc + 1)).err } := by
  simp only [fetch, State.memRead, fetchWord, State.readByte, checkAddr_eq]

@[simp] theorem fetch_ir (s : State) : (fetch s).ir = fetchWord s := by rw [fetch_eq]
@[simp] theorem fetch_pc (s : State) : (fetch s).pc = s.pc + 2 := by rw [fetch_eq]
@[simp] theorem fetch_mem (s : State) : (fetch s).mem = s.mem := by rw [fetch_eq]
@[simp] theorem fetch_ucnt (s : State) : (fetch s).ucnt = s.ucnt := by rw [fetch_eq]
@[simp] theorem fetch_mode (s : State) : (fetch s).mode = s.mode := by rw [fetch_eq]

/-- The fetch records `ADDR` when one of its two addresses lies above `0x0FFF`, and nothing else. -/
@[simp] theorem recorded_fetch (s : State) (c : ErrCond) : (fetch s).recorded c =
    (s.recorded c || (decide (c = .addr) && (outOfRange s.pc || outOfRange (s.pc + 1)))) := by
  have h : (fetch s).recorded c = ((s.checkAddr s.pc).checkAddr (s.pc + 1)).recorded c :=
    recorded_congr (by rw [fetch_eq]) c
  rw [h, recorded_checkAddr, recorded_checkAddr, Bool.or_assoc, Bool.and_or_distrib_left]

/-- The timer phase touches the timers and the latch alone. -/
theorem timerPhase_eq (s : State) : timerPhase s = { s with
    dt := if s.tickP then countDown s.dt else s.dt
    st := if s.tickP then countDown s.st else s.st
    tickP := false } := by
  obtain ⟨_, _, _, _, _, _, _, _, _, _, tickP, _, _, _, _, _, _⟩ := s
  cases tickP <;> rfl

theorem countDown_toNat (b : Byte) : (countDown b).toNat = b.toNat - 1 := by
  unfold countDown
  split
  case isTrue h => simp [h]
  case isFalse h =>
    have hlt := b.isLt
    have hne : b.toNat ≠ 0 := fun e => h (BitVec.eq_of_toNat_eq (by simpa using e))
    rw [BitVec.toNat_sub]
    show (2 ^ 8 - 1 + b.toNat) % 2 ^ 8 = b.toNat - 1
    omega

/-- An unrecognised word: `ERR` and `UCNT` alone. -/
theorem unrecognised_eq (s : State) : unrecognised s =
    { s with err := (s.raise .undef).err, ucnt := saturatingSucc s.ucnt } := rfl

theorem saturatingSucc_toNat (c : BitVec 16) : (saturatingSucc c).toNat = min (c.toNat + 1) 0xFFFF := by
  unfold saturatingSucc
  have hlt := c.isLt
  split
  case isTrue h => subst h; decide
  case isFalse h =>
    have hne : c.toNat ≠ 0xFFFF := fun e => h (BitVec.eq_of_toNat_eq (by simpa using e))
    rw [BitVec.toNat_add]
    show (c.toNat + 1) % 2 ^ 16 = min (c.toNat + 1) 0xFFFF
    omega

/-! ### The step -/

/-- A step request while loading is ignored (R24). -/
theorem step_load {s : State} (h : s.mode = .load) : step s = .next s := by
  simp [step, stepRequest, h]

/-- A step while running is the three phases (R27). -/
theorem step_run {s : State} (h : s.mode = .run) : step s = threePhases s := by
  simp [step, stepRequest, h]

/-- What a step can do: it is ignored, or it executes the fetched word and ends with the timer phase. -/
theorem step_cases {s t : State} (h : step s = .next t) : (s.mode = .load ∧ t = s) ∨
    (s.mode = .run ∧ ∃ u, execute (fetch (beginStep s)) = .next u ∧ t = endStep (timerPhase u)) := by
  cases hm : s.mode with
  | load =>
    rw [step_load hm] at h
    exact .inl ⟨rfl, by cases h; rfl⟩
  | run =>
    rw [step_run hm, threePhases] at h
    split at h
    case h_1 u hu => exact .inr ⟨rfl, u, hu, by cases h; rfl⟩
    all_goals cases h

/-- What executing the fetched word is: the decoded instruction, or the counted no-op (R27, R65). -/
theorem execute_cases (s : State) : (∃ i, decodeWord s.ir = .ok i ∧ execute s = exec i s) ∨
    (∃ e, decodeWord s.ir = .error e ∧ execute s = .next (unrecognised s)) := by
  unfold execute
  cases decodeWord s.ir with
  | ok i => exact .inl ⟨i, rfl, rfl⟩
  | error e => exact .inr ⟨e, rfl, rfl⟩

end Sys2Proof.Machine
end

