-- ==== Sys2Proof/Tests/Slice0.lean ====
section
/-! SUPPORT. Tests: words written out from R64, single steps whose results are the vectors of 95_test_vectors.md (named in
each comment), and witnesses of the hypotheses of the statements in Certificates/Slice0/Obligations.lean. -/

namespace Sys2Proof.Tests

open Sys2Proof Sys2Proof.Machine Sys2Proof.Claims

/-! ### Helpers -/

/-- The machine after reset with a word at `a` and `PC` there, running, with the given inputs. -/
def readyAt (a : Word) (inp : StepInputs) (w : Nat) : State :=
  { State.reset with pc := a, inputs := [inp] }.withFetchWord 16 w

/-- The vectors' conventions: the word at `0x200`, no key, random number 0, no tick. -/
def ready (w : Nat) : State := readyAt 0x200 ⟨0, 0, false⟩ w

/-- The same with keys held. -/
def readyKeys (k : BitVec 16) (w : Nat) : State := readyAt 0x200 ⟨k, 0, false⟩ w

/-- The same with a tick. -/
def readyTick (w : Nat) : State := readyAt 0x200 ⟨0, 0, true⟩ w

/-- With registers set. -/
def regs (l : List (Nibble × Byte)) (s : State) : State := l.foldl (fun t p => t.setReg p.1 p.2) s

/-- With memory cells set. -/
def cells (l : List (Nat × Byte)) (s : State) : State :=
  { s with mem := l.foldl (fun m p => Memory.write m p.1 p.2) s.mem }

/-- With framebuffer cells lit. -/
def lit (l : List (Fin 32 × Fin 64)) (s : State) : State := l.foldl (fun t p => t.flipPixel p.1 p.2) s

/-- The framebuffer cells that are lit, by index. -/
def litCells (s : State) : List Nat :=
  (List.range 32).flatMap fun r => ((List.range 64).filter fun c => s.pixel (Fin.ofNat 32 r) (Fin.ofNat 64 c)).map fun c => r * 64 + c

/-- One step ends in a next state that satisfies `p`. -/
def after (s : State) (p : State → Bool) : Bool :=
  match step s with
  | .next t => p t
  | _ => false

theorem next_of_after {s : State} {p : State → Bool} (h : after s p = true) : ∃ t, step s = .next t ∧ p t = true := by
  unfold after at h
  split at h
  case h_1 t ht => exact ⟨t, ht, h⟩
  all_goals cases h

/-! ### WellFormed: the one check, and what it refuses -/

theorem test_programFits_accepts_largest : programFits (List.replicate 0xE00 0) = true := by
  rw [programFits, List.length_replicate]; decide

theorem test_programFits_refuses_one_more : programFits (List.replicate 0xE01 0) = false := by
  rw [programFits, List.length_replicate]; decide

/-! ### Decoding, by words written out from R64 -/

theorem test_decode_display_control :
    decode [0x00, 0xE0] = .ok (.cls, []) ∧ decode [0x00, 0xEE] = .ok (.ret, []) ∧ decode [0x12, 0x34] = .ok (.jp 0x234, []) ∧
    decode [0x22, 0x0A] = .ok (.call 0x20A, []) ∧ decode [0xBF, 0xFF] = .ok (.jpV0 0xFFF, []) := by decide

theorem test_decode_skips :
    decode [0x3A, 0x07] = .ok (.seB 0xA 0x07, []) ∧ decode [0x4A, 0x07] = .ok (.sneB 0xA 0x07, []) ∧
    decode [0x52, 0x30] = .ok (.seR 2 3, []) ∧ decode [0x92, 0x30] = .ok (.sneR 2 3, []) ∧
    decode [0xE5, 0x9E] = .ok (.skp 5, []) ∧ decode [0xE5, 0xA1] = .ok (.sknp 5, []) := by decide

theorem test_decode_arithmetic :
    decode [0x60, 0xFE] = .ok (.ldB 0 0xFE, []) ∧ decode [0x71, 0xFF] = .ok (.addB 1 0xFF, []) ∧
    decode [0x82, 0x30] = .ok (.ldR 2 3, []) ∧ decode [0x80, 0x11] = .ok (.orR 0 1, []) ∧
    decode [0x80, 0x12] = .ok (.andR 0 1, []) ∧ decode [0x80, 0x13] = .ok (.xorR 0 1, []) := by decide

theorem test_decode_flag_writers :
    decode [0x80, 0xF4] = .ok (.addR 0 0xF, []) ∧ decode [0x8F, 0x15] = .ok (.sub 0xF 1, []) ∧
    decode [0x84, 0x16] = .ok (.shr 4 1, []) ∧ decode [0x80, 0x17] = .ok (.subn 0 1, []) ∧
    decode [0x84, 0xFE] = .ok (.shl 4 0xF, []) := by decide

theorem test_decode_index_random_draw :
    decode [0xA3, 0x00] = .ok (.ldI 0x300, []) ∧ decode [0xF0, 0x29] = .ok (.ldF 0, []) ∧
    decode [0xF2, 0x1E] = .ok (.addI 2, []) ∧ decode [0xC3, 0x0F] = .ok (.rnd 3 0x0F, []) ∧
    decode [0xD1, 0x25] = .ok (.drw 1 2 5, []) := by decide

theorem test_decode_timers_bulk :
    decode [0xF3, 0x07] = .ok (.ldGdt 3, []) ∧ decode [0xF5, 0x0A] = .ok (.ldK 5, []) ∧
    decode [0xFA, 0x15] = .ok (.ldSdt 0xA, []) ∧ decode [0xF1, 0x18] = .ok (.ldSt 1, []) ∧
    decode [0xF0, 0x33] = .ok (.ldBcd 0, []) ∧ decode [0xF2, 0x55] = .ok (.ldStm 2, []) ∧
    decode [0xF2, 0x65] = .ok (.ldLdm 2, []) := by decide

/-- Vectors F4, F5, F6, and a list that ends too early. -/
theorem test_decode_rejects :
    decode [0x50, 0x11] = .error .skipEqualTail ∧ decode [0xE0, 0x00] = .error .keyTail ∧
    decode [0xF0, 0x00] = .error .miscTail ∧ decode [0xF0, 0xFF] = .error .miscTail ∧
    decode [0x90, 0x01] = .error .skipNotEqualTail ∧ decode [0x80, 0x0F] = .error .arithmeticTail ∧
    decode [0x00, 0xE1] = .error .machineRoutine ∧ decode [0x0E, 0xE0] = .error .machineRoutine ∧
    decode [0x12] = .error .truncated := by decide

theorem test_decodeTableWord : decodeTableWord 16 0xD125 = some (.drw 1 2 5) ∧ decodeTableWord 16 0x8008 = none := by decide

/-- F1: the byte at the lower address is the high one. -/
theorem test_encodeBytes_big_endian : encodeBytes (.jp 0x234) = [0x12, 0x34] := by decide

/-! ### Fetch and unrecognised words -/

/-- F3: `UCNT` saturates. -/
theorem test_unrecognised_saturates :
    after { ready 0x8008 with ucnt := 0xFFFF, err := 1 } (fun t => t.ucnt == 0xFFFF && t.err == 1 && t.pc == 0x202) = true := by
  decide

/-- F7: the second byte comes from cell `0x000`, and `ADDR` is recorded. -/
theorem test_fetch_past_the_top :
    after { cells [(0xFFF, 0x6A)] (ready 0) with pc := 0xFFF }
      (fun t => t.ir == 0x6AF0 && t.err == 0b01000 && t.reg 0xA == 0xF0 && t.pc == 0x1001) = true := by decide

/-- F9: `PC` wraps from `0xFFFF`. -/
theorem test_fetch_wraps :
    after { cells [(0xFFF, 0x12)] (ready 0) with pc := 0xFFFF } (fun t => t.ir == 0x12F0 && t.err == 0b01000 && t.pc == 0x2F0) = true := by
  decide

/-- K22: the timer phase runs after an unrecognised word too. -/
theorem test_unrecognised_ticks :
    after { readyTick 0 with dt := 9 } (fun t => t.dt == 8 && t.err == 1 && t.ucnt == 1 && !t.tickP) = true := by decide

/-! ### Display and control flow -/

/-- L1.2. -/
theorem test_cls :
    after (lit [(0, 0), (1, 13), (31, 63)] (regs [(0xF, 1)] (ready 0x00E0)))
      (fun t => litCells t == [] && t.reg 0xF == 1 && t.pc == 0x202 && !t.fbChanged) = true := by decide +kernel

/-- C3. -/
theorem test_jp_self : after (readyAt 0x20C ⟨0, 0, false⟩ 0x120C) (fun t => t.pc == 0x20C) = true := by decide

/-- C6. -/
theorem test_call_16th :
    after { ready 0x2300 with sp := 15 } (fun t => t.stack[15] == 0x202 && t.sp == 16 && t.pc == 0x300 && t.err == 0) = true := by
  decide

/-- C7. -/
theorem test_call_17th :
    after { ready 0x2300 with sp := 16 } (fun t => t.stack == State.reset.stack && t.sp == 16 && t.pc == 0x202 && t.err == 0b00010) = true := by
  decide

/-- C8. -/
theorem test_ret :
    after { ready 0x00EE with sp := 1, stack := State.reset.stack.set 0 0x206 }
      (fun t => t.sp == 0 && t.pc == 0x206 && t.stack[0] == 0x206) = true := by decide

/-- C9. -/
theorem test_ret_empty : after (ready 0x00EE) (fun t => t.sp == 0 && t.pc == 0x202 && t.err == 0b00100) = true := by decide

/-- C11. -/
theorem test_jpV0_not_masked : after (regs [(0, 0xFF)] (ready 0xBFFF)) (fun t => t.pc == 0x10FE && t.err == 0) = true := by decide

/-- C12. -/
theorem test_jpV0_uses_V0 : after (regs [(3, 0x09)] (ready 0xB300)) (fun t => t.pc == 0x300) = true := by decide

/-! ### Skips (L1.7, S1) -/

theorem test_seB_flag_register : after (regs [(0xF, 1)] (ready 0x3F01)) (fun t => t.pc == 0x204) = true := by decide
theorem test_seB_differs : after (regs [(0xA, 8)] (ready 0x3A07)) (fun t => t.pc == 0x202) = true := by decide
theorem test_sneB_equal : after (regs [(0xA, 7)] (ready 0x4A07)) (fun t => t.pc == 0x202) = true := by decide
theorem test_sneB_differs : after (regs [(0xA, 8)] (ready 0x4A07)) (fun t => t.pc == 0x204) = true := by decide
theorem test_seR_equal : after (regs [(2, 0x55), (3, 0x55)] (ready 0x5230)) (fun t => t.pc == 0x204) = true := by decide
theorem test_seR_differs : after (regs [(2, 0x55), (3, 0x54)] (ready 0x5230)) (fun t => t.pc == 0x202) = true := by decide
theorem test_sneR_equal : after (regs [(2, 0x55), (3, 0x55)] (ready 0x9230)) (fun t => t.pc == 0x202) = true := by decide
theorem test_sneR_differs : after (regs [(2, 0x55), (3, 0x54)] (ready 0x9230)) (fun t => t.pc == 0x204) = true := by decide

/-! ### Load and arithmetic (A2 to A38) -/

/-- A2. -/
theorem test_ldB : after (regs [(0xF, 0x55)] (ready 0x6F07)) (fun t => t.reg 0xF == 0x07) = true := by decide
/-- A4. -/
theorem test_addB_wraps : after (regs [(0, 0xFF), (0xF, 0x55)] (ready 0x7001)) (fun t => t.reg 0 == 0 && t.reg 0xF == 0x55) = true := by decide
/-- A5. -/
theorem test_ldR : after (regs [(3, 0x7C)] (ready 0x8230)) (fun t => t.reg 2 == 0x7C && t.reg 3 == 0x7C) = true := by decide
/-- A6. -/
theorem test_or : after (regs [(0, 0xF0), (1, 0x0F), (0xF, 0x55)] (ready 0x8011)) (fun t => t.reg 0 == 0xFF && t.reg 0xF == 0x55) = true := by decide
/-- A7. -/
theorem test_and : after (regs [(0, 0xF0), (1, 0x3C)] (ready 0x8012)) (fun t => t.reg 0 == 0x30) = true := by decide
/-- A8. -/
theorem test_xor : after (regs [(0, 0xF0), (1, 0x3C)] (ready 0x8013)) (fun t => t.reg 0 == 0xCC) = true := by decide
/-- A14. -/
theorem test_addR_flag_operand : after (regs [(0, 0xF0), (0xF, 0x20)] (ready 0x80F4)) (fun t => t.reg 0 == 0xF1 && t.reg 0xF == 1) = true := by decide
/-- A15. -/
theorem test_addR_flag_destination : after (regs [(0xF, 0xFF), (1, 2)] (ready 0x8F14)) (fun t => t.reg 0xF == 3) = true := by decide
/-- A18. -/
theorem test_sub_borrow : after (regs [(0, 5), (1, 10)] (ready 0x8015)) (fun t => t.reg 0 == 0xFB && t.reg 0xF == 0) = true := by decide
/-- A22. -/
theorem test_sub_flag_operand : after (regs [(0, 0x30), (0xF, 0x20)] (ready 0x80F5)) (fun t => t.reg 0 == 0x2F && t.reg 0xF == 1) = true := by decide
/-- A32. -/
theorem test_shr_ignores_y :
    after (regs [(4, 0xFE), (1, 1)] (ready 0x8416)) (fun t => t.reg 4 == 0x7F && t.reg 0xF == 0 && t.reg 1 == 1) = true := by decide
/-- A34. -/
theorem test_shr_flag_register : after (regs [(0xF, 0xFF)] (ready 0x8F06)) (fun t => t.reg 0xF == 0) = true := by decide
/-- A27. -/
theorem test_subn_borrow : after (regs [(0, 10), (1, 5)] (ready 0x8017)) (fun t => t.reg 0 == 0xFB && t.reg 0xF == 0) = true := by decide
/-- A30. -/
theorem test_subn_flag_operand : after (regs [(0, 0x10), (0xF, 0x20)] (ready 0x80F7)) (fun t => t.reg 0 == 0xF1 && t.reg 0xF == 1) = true := by decide
/-- A37. -/
theorem test_shl_ignores_y : after (regs [(4, 0x80)] (ready 0x84FE)) (fun t => t.reg 4 == 0 && t.reg 0xF == 1) = true := by decide
/-- A38. -/
theorem test_shl_flag_register : after (regs [(0xF, 0xFF)] (ready 0x8F0E)) (fun t => t.reg 0xF == 2) = true := by decide

/-! ### Index register and random (X2 to X17) -/

/-- X2. -/
theorem test_ldI : after { ready 0xAFFF with i := 0x1234 } (fun t => t.i == 0x0FFF) = true := by decide
/-- X6. -/
theorem test_ldF_whole_byte : after (regs [(0, 0xFF)] (ready 0xF029)) (fun t => t.i == 0x04FB) = true := by decide
/-- X8. -/
theorem test_addI_leaves_range : after (regs [(2, 1)] { ready 0xF21E with i := 0x0FFF }) (fun t => t.i == 0x1000 && t.reg 0xF == 1) = true := by decide
/-- X12. -/
theorem test_addI_flag_register : after (regs [(0xF, 0x20)] { ready 0xFF1E with i := 0x0FF0 }) (fun t => t.i == 0x0FF1 && t.reg 0xF == 1) = true := by decide
/-- X13. -/
theorem test_rnd : after (readyAt 0x200 ⟨0, 1000, false⟩ 0xC30F) (fun t => t.reg 3 == 0x0C) = true := by decide
/-- X15. -/
theorem test_rnd_never_zero : after (readyAt 0x200 ⟨0, 255, false⟩ 0xC3FF) (fun t => t.reg 3 == 1) = true := by decide

/-! ### Draw -/

/-- D4. -/
theorem test_drw_wraps :
    after (cells [(0x300, 0x81)] (regs [(0, 0xFF), (1, 0xFF)] { ready 0xD011 with i := 0x300 }))
      (fun t => litCells t == [1990, 2047] && t.reg 0xF == 0 && t.fbChanged) = true := by decide +kernel

/-- D6. -/
theorem test_drw_collision :
    after (cells [(0x300, 0xF0)] (lit [(0, 2), (0, 5)] { ready 0xD011 with i := 0x300 }))
      (fun t => litCells t == [0, 1, 3, 5] && t.reg 0xF == 1) = true := by decide +kernel

/-! ### Keys and timers -/

/-- K5. -/
theorem test_skp_low_nibble : after (regs [(5, 0x1A)] (readyKeys 0x0400 0xE59E)) (fun t => t.pc == 0x204 && t.err == 0b10000) = true := by decide
/-- K2. -/
theorem test_skp_other_keys : after (regs [(5, 0x0A)] (readyKeys 0xFBFF 0xE59E)) (fun t => t.pc == 0x202 && t.err == 0) = true := by decide
/-- K4. -/
theorem test_sknp_held : after (regs [(5, 0x0A)] (readyKeys 0x0400 0xE5A1)) (fun t => t.pc == 0x202) = true := by decide
/-- K6. -/
theorem test_sknp_low_nibble : after (regs [(5, 0x1A)] (readyKeys 0 0xE5A1)) (fun t => t.pc == 0x204 && t.err == 0b10000) = true := by decide
/-- K7. -/
theorem test_ldK_waits : after (ready 0xF50A) (fun t => t.pc == 0x200 && t.v == State.reset.v) = true := by decide
/-- K8. -/
theorem test_ldK_least_key : after (readyKeys 0x0090 0xF50A) (fun t => t.pc == 0x202 && t.reg 5 == 4) = true := by decide
/-- K13. -/
theorem test_ldGdt_before_tick : after { readyTick 0xF307 with dt := 0x3C } (fun t => t.reg 3 == 0x3C && t.dt == 0x3B && !t.tickP) = true := by decide
/-- K15. -/
theorem test_ldSdt_tick : after (regs [(0xA, 3)] (readyTick 0xFA15)) (fun t => t.dt == 2) = true := by decide
/-- K16. -/
theorem test_ldSdt_zero : after (regs [(0xA, 0)] { readyTick 0xFA15 with dt := 9 }) (fun t => t.dt == 0) = true := by decide
/-- K17. -/
theorem test_ldSt_tone : after (regs [(1, 0x1E)] (ready 0xF118)) (fun t => t.st == 0x1E && t.tone) = true := by decide
/-- K18. -/
theorem test_ldSt_tick : after (regs [(1, 1)] (readyTick 0xF118)) (fun t => t.st == 0 && !t.tone) = true := by decide

/-! ### BCD and bulk transfer -/

/-- B6. -/
theorem test_bcd_past_the_top :
    after (regs [(0, 0xFE)] { ready 0xF033 with i := 0x0FFE }) (fun t =>
      t.mem == [(0x000, 4), (0x200, 0xF0), (0x201, 0x33), (0xFFE, 2), (0xFFF, 5)] && t.err == 0b01000 && t.i == 0x0FFE) = true := by decide

/-- B8. -/
theorem test_ldStm_one_register :
    after (regs [(0, 0x5A), (1, 0x77)] { ready 0xF055 with i := 0x400 }) (fun t =>
      t.mem == [(0x200, 0xF0), (0x201, 0x55), (0x400, 0x5A)] && t.i == 0x400) = true := by decide

/-- B12. -/
theorem test_ldStm_over_itself :
    after (regs [(0, 0x12)] { ready 0xF155 with i := 0x200 }) (fun t => t.mem == [(0x200, 0x12)] && t.pc == 0x202) = true := by decide

/-- B10. -/
theorem test_ldLdm_glyph :
    after (regs [(3, 0x99)] { ready 0xF265 with i := 0x005 }) (fun t =>
      t.reg 0 == 0x20 && t.reg 1 == 0x60 && t.reg 2 == 0x20 && t.reg 3 == 0x99 && t.i == 0x005) = true := by decide

/-! ### Reset, loading, ticks -/

theorem test_reset_memory_wf : Memory.wf State.reset.mem := by decide

/-- R3, and the first address that is accepted. -/
theorem test_load_port_range :
    (loadWrite 0x1FF 0x12 State.reset).mem = [] ∧ (loadWrite 0x200 0x12 State.reset).mem = [(0x200, 0x12)] ∧
    (loadWrite 0xFFF 0x12 State.reset).mem = [(0xFFF, 0x12)] := by decide

/-- R4. -/
theorem test_load_port_dead : (loadWrite 0x200 0x12 (start State.reset)).mem = [] := by decide

/-- R5. -/
theorem test_step_ignored_while_loading : step State.reset = .next State.reset := rfl

/-- L1.1. -/
theorem test_load_program :
    (match launch [0x60, 0xFE, 0xA3, 0x00] State.reset with
    | .ok t => t.mem == [(0x200, 0x60), (0x201, 0xFE), (0x202, 0xA3)] && t.mode == .run
    | .error _ => false) = true := by decide

/-- K23. -/
theorem test_ticks_are_latched : after (tickArrive (tickArrive { ready 0x6000 with dt := 9 })) (fun t => t.dt == 8) = true := by decide

/-! ### Witnesses: concrete states and operands that meet the hypotheses of the statements, clause by clause, at the edges -/

theorem witness_EveryStepKeepsTheInvariant :
    (ready 0x6005).Inv ∧ ∃ t, step (ready 0x6005) = .next t ∧ (t.reg 0 == 5) = true :=
  ⟨⟨by decide, by decide⟩, next_of_after (by decide)⟩

theorem witness_EveryReachableStateMeetsTheInvariant : Reachable (HostEvent.start.apply State.reset) :=
  .event .start _ .reset

theorem witness_EncodeOfDecodeIsTheWord : decodeWord 0x80F4 = .ok (.addR 0 0xF) := by decide

theorem witness_DecodeFollowsTheOpcodeTable :
    decodeWord 0xF065 = .ok (.ldLdm 0) ∧ decodeWord 0xF066 = .error .miscTail := by decide

theorem witness_StepRunsTheDecodedInstruction :
    (ready 0x6005).mode = .run ∧
    decode [(ready 0x6005).readByte (ready 0x6005).pc, (ready 0x6005).readByte ((ready 0x6005).pc + 1)] = .ok (.ldB 0 5, []) := by
  decide

/-- Below the saturation of the count and at it. -/
theorem witness_UnrecognisedWordIsACountedNoOp :
    (∀ u ∈ [(0 : BitVec 16), 0xFFFF], ({ ready 0x5011 with ucnt := u } : State).mode = .run) ∧
    decode [(ready 0x5011).readByte (ready 0x5011).pc, (ready 0x5011).readByte ((ready 0x5011).pc + 1)] = .error .skipEqualTail :=
  ⟨fun _ _ => rfl, by decide⟩

theorem witness_EveryStepCompletes : (ready 0x120C).mode = .run := rfl

theorem witness_ErrorsAreStickyAndTheCountNeverFalls :
    (∃ t, step { ready 0x6005 with err := 0b00101 } = .next t ∧ (t.err == 0b00101) = true) ∧ HostEvent.tickArrive ≠ .reset :=
  ⟨next_of_after (by decide), by decide⟩

/-- Each row of the table at its edge, on both sides of it. -/
theorem witness_ErrorBitsFollowTheConditionTable :
    conditionHolds (.call 0) { State.reset with sp := 16 } .stkovf ∧ ¬ conditionHolds (.call 0) { State.reset with sp := 15 } .stkovf ∧
    conditionHolds .ret State.reset .stkunf ∧ ¬ conditionHolds .ret { State.reset with sp := 1 } .stkunf ∧
    conditionHolds (.skp 0) (regs [(0, 16)] State.reset) .key ∧ ¬ conditionHolds (.sknp 0) (regs [(0, 15)] State.reset) .key ∧
    conditionHolds (.drw 0 0 2) { State.reset with i := 0x0FFF } .addr ∧
    conditionHolds (.ldBcd 0) { State.reset with i := 0x0FFE } .addr ∧
    conditionHolds (.ldStm 1) { State.reset with i := 0x0FFF } .addr ∧
    conditionHolds (.ldLdm 15) { State.reset with i := 0x0FF1 } .addr := by
  refine ⟨rfl, ?_, rfl, ?_, ?_, ?_, ⟨1, by decide, by decide⟩, ⟨2, by decide, by decide⟩, ⟨1, by decide, by decide⟩,
    ⟨15, by decide, by decide⟩⟩
  · show ¬ (15 : Fin 17).val = 16
    decide
  · show ¬ (1 : Fin 17).val = 0
    decide
  · show 15 < ((regs [(0, 16)] State.reset).reg 0).toNat
    decide
  · show ¬ 15 < ((regs [(0, 15)] State.reset).reg 0).toNat
    decide

/-- At the edge of `ADDR`, inside it. -/
theorem witness_no_address_error :
    ¬ conditionHolds (.drw 0 0 1) { State.reset with i := 0x0FFF } .addr ∧
    ¬ conditionHolds (.ldStm 0) { State.reset with i := 0x0FFF } .addr := by
  constructor
  · rintro ⟨k, hk, h⟩
    have : k = 0 := by simpa using hk
    subst this
    exact absurd h (by decide)
  · rintro ⟨k, hk, h⟩
    have : k = 0 := by simpa using hk
    subst this
    exact absurd h (by decide)

theorem witness_TimerPhaseCountsDownOncePerTick :
    (tickArrive State.reset).tickP = true ∧ State.reset.tickP = false ∧
    ((ready 0x6005).mode = .run ∧ ∃ t, step (ready 0x6005) = .next t ∧ (t.reg 0 == 5) = true) ∧
    (State.reset.mode = .load ∧ step State.reset = .next State.reset) ∧ HostEvent.start ≠ .reset :=
  ⟨rfl, rfl, ⟨rfl, next_of_after (by decide)⟩, ⟨rfl, rfl⟩, by decide⟩

/-- A word that is neither timer write, one that is `LD.ST` and so not `LD.SDT`, and the other way round. -/
theorem witness_TimerPhaseCountsDownOncePerTick_writers :
    (∀ x, decode [0x60, 0x05] ≠ .ok (.ldSdt x, [])) ∧ (∀ x, decode [0x60, 0x05] ≠ .ok (.ldSt x, [])) ∧
    (∀ x, decode [0xF1, 0x18] ≠ .ok (.ldSdt x, [])) ∧ (∀ x, decode [0xFA, 0x15] ≠ .ok (.ldSt x, [])) := by decide

theorem witness_TickIsLatchedNotCounted :
    (readyTick 0x6005).mode = .run ∧ ∃ t, step (readyTick 0x6005) = .next t ∧ (t.reg 0 == 5) = true :=
  ⟨rfl, next_of_after (by decide)⟩

/-- `VF` under an instruction that writes no flag, and another register under one that does. -/
theorem witness_RegistersChangeOnlyAsDestinationOrFlag :
    (isDestination (.addB 0 1) 0xF = false ∧ writesFlag (.addB 0 1) = false) ∧
    (isDestination (.addR 0 1) 1 = false ∧ (1 : Nibble) ≠ 0xF) ∧ isDestination (.ldLdm 3) 4 = false := by decide

theorem witness_OnlyBcdAndBulkStoreWriteMemory : (∀ x, Instr.ldLdm 0 ≠ .ldBcd x) ∧ ∀ x, Instr.ldLdm 0 ≠ .ldStm x :=
  ⟨fun _ => by simp, fun _ => by simp⟩

theorem witness_OnlyClearAndDrawWriteTheScreen : (∀ x y n, Instr.cls ≠ .drw x y n) ∧ (∀ x y n, Instr.ret ≠ .drw x y n) ∧ Instr.ret ≠ .cls :=
  ⟨fun _ _ _ => by simp, fun _ _ _ => by simp, by simp⟩

theorem witness_OnlyCallAndReturnTouchTheStack :
    (∀ nnn, Instr.jp 0 ≠ .call nnn) ∧ Instr.jp 0 ≠ .ret ∧ (∃ nnn, Instr.call 0x20A = .call nnn) :=
  ⟨fun _ => by simp, by simp, ⟨_, rfl⟩⟩

theorem witness_SystemRegistersHaveTheirOwnWriters :
    (∀ x, Instr.ldSt 0 ≠ .ldSdt x) ∧ (∀ x, Instr.ldSdt 0 ≠ .ldSt x) ∧
    (∀ nnn, Instr.ldSt 0 ≠ .ldI nnn) ∧ (∀ x, Instr.ldSt 0 ≠ .ldF x) ∧ ∀ x, Instr.ldSt 0 ≠ .addI x :=
  ⟨fun _ => by simp, fun _ => by simp, fun _ => by simp, fun _ => by simp, fun _ => by simp⟩

/-- `LD.STM` with `x = 0` at `I = 0x300`: the fetch at `0x2FF` takes an old and a stored byte, the one at `0x300` a stored and an old. -/
theorem witness_StoresAreSeenByTheNextFetch :
    (0 < (0 : Nibble).val + 1 ∧ cellOf 0x300 = cellOf ((0x300 : Word) + BitVec.ofNat 16 0)) ∧
    (∀ k, k < (0 : Nibble).val + 1 → cellOf 0x2FF ≠ cellOf ((0x300 : Word) + BitVec.ofNat 16 k)) ∧
    (∀ k, k < (0 : Nibble).val + 1 → cellOf 0x301 ≠ cellOf ((0x300 : Word) + BitVec.ofNat 16 k)) ∧
    (15 < (15 : Nibble).val + 1 ∧ cellOf 0x00E = cellOf ((0x0FFF : Word) + BitVec.ofNat 16 15)) ∧
    (2 < 3 ∧ cellOf 0x302 = cellOf ((0x300 : Word) + BitVec.ofNat 16 2)) := by decide

theorem witness_StackIsReachedByCallAndReturnAlone :
    (∀ nnn, Instr.drw 0 1 15 ≠ .call nnn) ∧ Instr.drw 0 1 15 ≠ .ret ∧ (∀ nnn, Instr.ldStm 15 ≠ .call nnn) ∧ Instr.ldStm 15 ≠ .ret :=
  ⟨fun _ => by simp, by simp, fun _ => by simp, by simp⟩

/-- `CALL` writes one slot alike and leaves the one above it. -/
theorem witness_StackIsReachedByCallAndReturnAlone_slots :
    after (ready 0x220A) (fun t => (t.stack[0] == 0x202) && (t.stack[1] == 0)) = true ∧
    after { ready 0x220A with stack := Vector.replicate 16 7 } (fun t => (t.stack[0] == 0x202) && (t.stack[1] == 7)) = true := by decide

theorem witness_LoaderPlacesOrRejectsTheProgram :
    ((List.replicate 0xE00 (0 : Byte)).length ≤ 0xE00 ∧ State.reset.mode = .load) ∧ 0xE00 < (List.replicate 0xE01 (0 : Byte)).length := by
  rw [List.length_replicate, List.length_replicate]
  decide

/-- The load port's range at its two ends and just below it. -/
theorem witness_LoadPortAndStepRequestsAreGuardedByMode :
    (State.reset.mode = .load ∧ (start State.reset).mode = .run) ∧ (0x1FF : Addr).toNat < 0x200 ∧ 0x200 ≤ (0x200 : Addr).toNat ∧
    0x200 ≤ (0xFFF : Addr).toNat := by decide

theorem witness_LaunchStateIsResetPlusTheProgram : (List.replicate 0xE00 (0 : Byte)).length ≤ 0xE00 := by
  rw [List.length_replicate]

/-- At the lowest program address and at the highest address a whole word fits. -/
theorem witness_RestIsKeptByEveryStep :
    (readyAt 0x200 ⟨0, 0, false⟩ 0x1200).atRest 0x200 ∧ (readyAt 0xFFE ⟨0, 0, false⟩ 0x1FFE).atRest 0xFFE :=
  ⟨⟨rfl, rfl, by decide, by decide, by decide⟩, ⟨rfl, rfl, by decide, by decide, by decide⟩⟩

theorem witness_CallPushesAndJumps : ({ State.reset with sp := 15 } : State).sp.val < 16 ∧ ({ State.reset with sp := 16 } : State).sp.val = 16 := by
  decide

theorem witness_ReturnPopsIntoPc : 0 < ({ State.reset with sp := 1 } : State).sp.val ∧ State.reset.sp.val = 0 ∧ (0 : Fin 16).val = 0 := by decide

theorem witness_ReturnComesBackFromTheCall : ({ State.reset with sp := 15 } : State).sp.val < 16 := by decide

/-- A word for each encoding that a statement of its own names. -/
theorem witness_Decodes :
    (0x1FFF : Word) &&& 0xF000 = 0x1000 ∧ (0x3A07 : Word) &&& 0xF000 = 0x3000 ∧ (0x4A07 : Word) &&& 0xF000 = 0x4000 ∧
    (0x5230 : Word) &&& 0xF00F = 0x5000 ∧ (0x9230 : Word) &&& 0xF00F = 0x9000 ∧ (0x60FE : Word) &&& 0xF000 = 0x6000 ∧
    (0x8230 : Word) &&& 0xF00F = 0x8000 ∧ (0x8014 : Word) &&& 0xF00F = 0x8004 ∧ (0x8015 : Word) &&& 0xF00F = 0x8005 ∧
    (0xA300 : Word) &&& 0xF000 = 0xA000 := by decide

theorem witness_JumpSetsPc : (0x1FFF : Word) &&& 0xF000 = 0x1000 := by decide

theorem witness_SkipsAdvancePcWhenTheConditionHolds :
    (0x5011 : Word).toNat / 4096 = 5 ∧ (0x5011 : Word).toNat % 16 ≠ 0 ∧ (0x900F : Word).toNat / 4096 = 9 ∧ (0x900F : Word).toNat % 16 ≠ 0 := by
  decide

theorem witness_LoadImmediateAndCopy : (0x60FE : Word) &&& 0xF000 = 0x6000 ∧ (1 : Nibble) ≠ 0 := by decide

theorem witness_AddImmediateAndBitwiseWriteNoFlag : (0xF : Nibble) ≠ 0 := by decide

/-- The carry at its edge: 255 gives none, 256 gives one; the four operand shapes exclude each other. -/
theorem witness_AddWithCarryOut :
    (0 : Nat) = (if 255 < (0xFE : Byte).toNat + (0x01 : Byte).toNat then 1 else 0) ∧
    (1 : Nat) = (if 255 < (0xFF : Byte).toNat + (0x01 : Byte).toNat then 1 else 0) ∧ (0 : Nibble) ≠ 0xF ∧ (1 : Nibble) ≠ 0 := by decide

/-- The borrow at its edge: equality gives none. -/
theorem witness_SubtractWithNoBorrowFlag :
    (1 : Nat) = (if (0x07 : Byte).toNat ≤ (0x07 : Byte).toNat then 1 else 0) ∧
    (0 : Nat) = (if (0x08 : Byte).toNat ≤ (0x07 : Byte).toNat then 1 else 0) ∧ (0 : Nibble) ≠ 0xF ∧ (1 : Nibble) ≠ 0 := by decide

/-- The borrow of the reversed order at its edge. -/
theorem witness_SubtractReversedWithNoBorrowFlag :
    (1 : Nat) = (if (0x09 : Byte).toNat ≤ (0x09 : Byte).toNat then 1 else 0) ∧
    (0 : Nat) = (if (0x0A : Byte).toNat ≤ (0x09 : Byte).toNat then 1 else 0) ∧ (0 : Nibble) ≠ 0xF ∧ (1 : Nibble) ≠ 0 := by decide

theorem witness_ShiftsMoveOneBitIntoVF : (4 : Nibble) ≠ 0xF ∧ (5 : Nibble) ≠ 4 := by decide

theorem witness_LoadIndexImmediate : (0xAFFF : Word) &&& 0xF000 = 0xA000 := by decide

/-- The two limits, each at the sum that does not exceed it and the one that does. -/
theorem witness_AddIndexCarriesAtTheLimit :
    (0 : Nat) = (if CarryLimit.addressRange.value < (0x0FFF : Word).toNat + (0 : Byte).toNat then 1 else 0) ∧
    (1 : Nat) = (if CarryLimit.addressRange.value < (0x0FFF : Word).toNat + (1 : Byte).toNat then 1 else 0) ∧
    (0 : Nat) = (if CarryLimit.register.value < (0xFFFF : Word).toNat + (0 : Byte).toNat then 1 else 0) ∧
    (1 : Nat) = (if CarryLimit.register.value < (0xFFFF : Word).toNat + (1 : Byte).toNat then 1 else 0) := by decide

theorem witness_RandomFollowsTheFormula : (0xFF : Byte) = 0xFF ∧ (0 : Nibble) ≠ 3 := by decide

/-- Coordinates 63 and 31 from the byte `0xFF`; a set sprite bit over a lit cell, and none over a dark screen. -/
theorem witness_DrawInvertsTheSpriteAndReportsCollision :
    let s := regs [(0, 0xFF), (1, 0xFF)] (cells [(0x300, 0x80)] { State.reset with i := 0x300 })
    ((63 : Fin 64).val = (s.reg 0).toNat % 64 ∧ (31 : Fin 32).val = (s.reg 1).toNat % 32) ∧
    (∃ row col, spriteBit (lit [(31, 63)] s) 63 31 1 row col = true ∧ (lit [(31, 63)] s).pixel row col = true) ∧
    ¬ ∃ row col, spriteBit s 63 31 1 row col = true ∧ s.pixel row col = true := by
  refine ⟨by decide, ⟨31, 63, by decide, by decide⟩, ?_⟩
  rintro ⟨row, col, -, h⟩
  simp [regs, cells, State.pixel, State.setReg, State.reset] at h

theorem witness_DrawingTwiceRestoresTheScreen :
    let s := regs [(0, 0xFF), (1, 0xFF)] (cells [(0x300, 0x80)] { State.reset with i := 0x300 })
    ((0 : Nibble) ≠ 0xF ∧ (1 : Nibble) ≠ 0xF) ∧ (63 : Fin 64).val = (s.reg 0).toNat % 64 ∧ (31 : Fin 32).val = (s.reg 1).toNat % 32 := by
  decide

theorem witness_KeyWaitReexecutesUntilAKeyIsHeld : (ready 0xF50A).nowInputs.keyIn = 0 ∧ (readyKeys 0x8000 0xF50A).nowInputs.keyIn ≠ 0 := by
  decide

/-- Each of the three instructions, in a step with a tick and in one without. -/
theorem witness_TimersCountDownAfterTheInstruction :
    ∀ w ∈ [0xF315, 0xF318, 0xF307], ∀ s ∈ [readyTick w, ready w], s.mode = .run ∧
      (decode [s.readByte s.pc, s.readByte (s.pc + 1)] = .ok (.ldSdt 3, []) ∨
       decode [s.readByte s.pc, s.readByte (s.pc + 1)] = .ok (.ldSt 3, []) ∨
       decode [s.readByte s.pc, s.readByte (s.pc + 1)] = .ok (.ldGdt 3, [])) ∧
      after s (fun _ => true) = true ∧ (s.tickP || s.nowInputs.tick) = decide (s = readyTick w) := by decide +kernel

/-- All registers, one register, and a register above those transferred. -/
theorem witness_BulkTransfers : (15 : Nibble) ≤ 15 ∧ (0 : Nibble) ≤ 0 ∧ (14 : Nibble) < 15 := by decide

end Sys2Proof.Tests
end

section
/-! R15: the call stack as a storage of its own. One operation replaces the whole call stack; every instruction but
`CALL` and `RET` commutes with it, so it neither reads nor writes the slots or `SP`. -/

namespace Sys2Proof.Machine

/-- The state with another call stack: other slots and another `SP` (R15, R16). -/
def State.withStack (s : State) (slots : Vector Word 16) (n : Fin 17) : State := { s with stack := slots, sp := n }

/-! ### The shared operations commute with a change of the call stack -/

section
variable (s : State) (slots : Vector Word 16) (n : Fin 17)

@[simp] theorem reg_withStack (x : Nibble) : (s.withStack slots n).reg x = s.reg x := rfl
@[simp] theorem elemAddress_withStack (k : Nat) : (s.withStack slots n).elemAddress k = s.elemAddress k := rfl
@[simp] theorem pixel_withStack (row : Fin 32) (col : Fin 64) : (s.withStack slots n).pixel row col = s.pixel row col := rfl
@[simp] theorem firstKey_withStack : (s.withStack slots n).firstKey = s.firstKey := rfl

theorem skipIf_withStack (c : Bool) : (s.withStack slots n).skipIf c = (s.skipIf c).withStack slots n := by
  rw [skipIf_eq, skipIf_eq]
  rfl

theorem checkAddr_withStack (a : Word) : (s.withStack slots n).checkAddr a = (s.checkAddr a).withStack slots n := by
  rw [checkAddr_eq, checkAddr_eq]
  rfl

theorem checkKey_withStack (b : Byte) : (s.withStack slots n).checkKey b = (s.checkKey b).withStack slots n := by
  rw [checkKey_eq, checkKey_eq]
  rfl

theorem memWrite_withStack (a : Word) (b : Byte) :
    (s.withStack slots n).memWrite a b = (s.memWrite a b).withStack slots n := by
  rw [State.memWrite, checkAddr_withStack]
  rfl

theorem drawPixel_withStack (row : Fin 32) (col : Fin 64) :
    drawPixel row col (s.withStack slots n) = (drawPixel row col s).withStack slots n := by
  rw [drawPixel_eq, drawPixel_eq, pixel_withStack]
  split <;> rfl

/-! ### The loops of the bulk transfers and of `DRW` -/

theorem storeReg_withStack (k : Nibble) : storeReg (s.withStack slots n) k = (storeReg s k).withStack slots n :=
  memWrite_withStack s slots n (s.elemAddress k.val) (s.reg k)

theorem loadReg_withStack (k : Nibble) : loadReg (s.withStack slots n) k = (loadReg s k).withStack slots n :=
  congrArg (State.setReg · k (s.readByte (s.elemAddress k.val))) (checkAddr_withStack s slots n (s.elemAddress k.val))

theorem drawBit_withStack (b : Byte) (row : Fin 32) (x0 : Fin 64) (col : Nat) :
    drawBit b row x0 (s.withStack slots n) col = (drawBit b row x0 s col).withStack slots n := by
  unfold drawBit
  split
  · exact drawPixel_withStack ..
  · rfl

theorem drawByte_withStack (b : Byte) (row : Fin 32) (x0 : Fin 64) :
    drawByte b row x0 (s.withStack slots n) = (drawByte b row x0 s).withStack slots n :=
  List.foldl_hom (State.withStack · slots n) fun t => drawBit_withStack t slots n b row x0

theorem drawRow_withStack (x0 : Fin 64) (y0 : Fin 32) (k : Nat) :
    drawRow x0 y0 (s.withStack slots n) k = (drawRow x0 y0 s k).withStack slots n :=
  (congrArg (drawByte _ _ _) (checkAddr_withStack s slots n (s.elemAddress k))).trans (drawByte_withStack ..)

theorem drawSprite_withStack (x0 : Fin 64) (y0 : Fin 32) (rows : Nat) :
    drawSprite x0 y0 rows (s.withStack slots n) = (drawSprite x0 y0 rows s).withStack slots n :=
  List.foldl_hom (State.withStack · slots n) fun t => drawRow_withStack t slots n x0 y0

end

/-! ### Instructions -/

/-- Every instruction but `CALL` and `RET` runs alike whatever the call stack holds. -/
theorem exec_withStack {i : Instr} (hcall : ∀ nnn, i ≠ .call nnn) (hret : i ≠ .ret) (s : State) :
    ∃ t, exec i s = .next t ∧ ∀ slots n, exec i (s.withStack slots n) = .next (t.withStack slots n) := by
  cases i with
  | call nnn => exact absurd rfl (hcall nnn)
  | ret => exact absurd rfl hret
  | seB x kk | sneB x kk | seR x y | sneR x y => exact ⟨_, rfl, fun _ _ => congrArg _ (skipIf_withStack ..)⟩
  | skp x | sknp x =>
    exact ⟨_, rfl, fun _ _ => congrArg _ ((congrArg (State.skipIf · _) (checkKey_withStack ..)).trans (skipIf_withStack ..))⟩
  | drw x y n =>
    exact ⟨_, rfl, fun _ _ => congrArg (Host.Outcome.next ∘ State.pulseFbChanged) (drawSprite_withStack (s.setReg vF 0) ..)⟩
  | ldK x =>
    refine ⟨_, rfl, fun slots n => ?_⟩
    simp only [exec, execLdK, firstKey_withStack]
    cases s.firstKey <;> rfl
  | ldBcd x =>
    exact ⟨_, rfl, fun _ _ => by simp only [exec, execLdBcd, elemAddress_withStack, reg_withStack, memWrite_withStack]⟩
  | ldStm x => exact ⟨_, rfl, fun slots n => congrArg _ (List.foldl_hom _ fun t => storeReg_withStack t slots n)⟩
  | ldLdm x => exact ⟨_, rfl, fun slots n => congrArg _ (List.foldl_hom _ fun t => loadReg_withStack t slots n)⟩
  | _ => exact ⟨_, rfl, fun _ _ => rfl⟩

/-- Every instruction but `CALL` and `RET` leaves the slots and `SP`: the state is the one with its own call stack put in. -/
theorem exec_stack_sp {i : Instr} (hcall : ∀ nnn, i ≠ .call nnn) (hret : i ≠ .ret) {s t : State}
    (h : exec i s = .next t) : t.stack = s.stack ∧ t.sp = s.sp := by
  obtain ⟨u, hu, hstack⟩ := exec_withStack hcall hret s
  have hself : u = u.withStack s.stack s.sp := Host.Outcome.next.inj (hu.symm.trans (hstack s.stack s.sp))
  obtain rfl : t = u := Host.Outcome.next.inj (h.symm.trans hu)
  rw [hself]
  exact ⟨rfl, rfl⟩

/-- `CALL` over other slots: the same state but for the slots, and each slot written alike or left. -/
theorem execCall_other_slots (nnn : Addr) (s : State) (slots : Vector Word 16) :
    ∃ t u, execCall nnn s = .next t ∧ execCall nnn { s with stack := slots } = .next u ∧ u = { t with stack := u.stack } ∧
      ∀ k : Fin 16, u.stack[k] = t.stack[k] ∨ (t.stack[k] = s.stack[k] ∧ u.stack[k] = slots[k]) := by
  by_cases h : s.sp.val < 16
  · refine ⟨(s.push s.pc h).setPc (zextAddr nnn), (State.push { s with stack := slots } s.pc h).setPc (zextAddr nnn),
      congrArg _ (dif_pos h), congrArg _ (dif_pos h), rfl, fun k => ?_⟩
    by_cases hk : s.sp.val = k.val
    · exact .inl (by simp [State.push, hk])
    · exact .inr (by simp [State.push, hk])
  · exact ⟨s.raise .stkovf, State.raise .stkovf { s with stack := slots },
      congrArg _ (dif_neg h), congrArg _ (dif_neg h), rfl, fun _ => .inr ⟨rfl, rfl⟩⟩

/-- `RET` writes no slot (R83). -/
theorem execRet_stack (s : State) : ∃ t, execRet s = .next t ∧ t.stack = s.stack := by
  refine ⟨_, rfl, ?_⟩
  split <;> rfl

/-! ### Accesses to memory and the load port -/

theorem checkAddr_stack (s : State) (a : Word) : (s.checkAddr a).stack = s.stack := by rw [checkAddr_eq]

theorem memWrite_stack (s : State) (a : Word) (b : Byte) : (s.memWrite a b).stack = s.stack := by rw [memWrite_eq]

theorem loadWrite_stack (a : Addr) (b : Byte) (s : State) : (loadWrite a b s).stack = s.stack := by
  unfold loadWrite
  split
  · split <;> rfl
  · rfl

end Sys2Proof.Machine

namespace Sys2Proof.Claims

open Sys2Proof.Machine

/-- Settles O59: the other instructions commute with a change of the call stack; `CALL`, `RET` and the accesses to memory by
their own lemmas. -/
theorem stackIsReachedByCallAndReturnAlone : Obligations.StackIsReachedByCallAndReturnAlone := by
  refine ⟨fun i s slots n hcall hret => ?_, execCall_other_slots, execRet_stack,
    fun s a c b => ⟨checkAddr_stack s a, memWrite_stack s a b, loadWrite_stack c b s⟩, by decide⟩
  obtain ⟨t, ht, hstack⟩ := exec_withStack hcall hret s
  obtain ⟨hslots, hsp⟩ := exec_stack_sp hcall hret ht
  exact ⟨t, ht, hslots, hsp, hstack slots n⟩

end Sys2Proof.Claims
end

section
/-! R43: the bytes of a word joined from two bytes are those two, so the fetched word shows the bytes it was read from. -/

namespace Sys2Proof

@[simp] theorem highByte_joinBytes (hi lo : Byte) : highByte (joinBytes hi lo) = hi := by
  apply BitVec.eq_of_toNat_eq
  rw [highByte_toNat, joinBytes_toNat]
  omega

@[simp] theorem lowByte_joinBytes (hi lo : Byte) : lowByte (joinBytes hi lo) = lo := by
  apply BitVec.eq_of_toNat_eq
  rw [lowByte_toNat, joinBytes_toNat]
  omega

end Sys2Proof

namespace Sys2Proof.Machine

theorem highByte_fetch_ir (s : State) : highByte (fetch s).ir = s.readByte s.pc := by
  rw [fetch_ir, fetchWord, highByte_joinBytes]

theorem lowByte_fetch_ir (s : State) : lowByte (fetch s).ir = s.readByte (s.pc + 1) := by
  rw [fetch_ir, fetchWord, lowByte_joinBytes]

end Sys2Proof.Machine

namespace Sys2Proof.Claims

open Sys2Proof.Machine

/-- Settles O11: the two slices of `IR` are the high and the low byte of the word joined from the cells at `PC` and `PC + 1`. -/
theorem fetchIsBigEndian : Obligations.FetchIsBigEndian :=
  fun s => ⟨highByte_fetch_ir s, lowByte_fetch_ir s⟩

end Sys2Proof.Claims
end

section
/-! The decoder against the encoder and the opcode map (R61 to R65). The words a row of the map selects share their fixed
nibbles with its pattern, so each row decodes to its own instruction; a word that decodes is built from its fields, so it is the
encoding of the instruction it decodes to. -/

namespace Sys2Proof

/-! ### The fixed fields of the words a row selects (R63) -/

theorem fieldOp_of_mask_F000 {w pat : Word} (h : w &&& 0xF000 = pat) : (fieldOp w).val = (fieldOp pat).val := by
  rw [← h, mask_F000]
  simp

theorem fields_of_mask_F00F {w pat : Word} (h : w &&& 0xF00F = pat) :
    (fieldOp w).val = (fieldOp pat).val ∧ fieldN w = fieldN pat := by
  rw [← h, mask_F00F]
  simp

/-- The low byte is the two low nibbles. -/
theorem fieldKK_toNat_eq (w : Word) : (fieldKK w).toNat = (fieldY w).val * 16 + (fieldN w).val := by
  rw [fieldKK_toNat, fieldY_val, fieldN_val]
  omega

theorem fields_of_mask_F0FF {w pat : Word} (h : w &&& 0xF0FF = pat) :
    (fieldOp w).val = (fieldOp pat).val ∧ (fieldKK w).toNat = (fieldKK pat).toNat := by
  rw [← h, mask_F0FF, fieldKK_toNat_eq, fieldKK_toNat_eq]
  simp

/-! ### A word is built from the fields it is read as (R61, R62) -/

theorem formA_fields {w : Word} {op : BitVec 4} (h : (fieldOp w).val = op.toNat) : formA op (fieldNNN w) = w := by
  apply BitVec.eq_of_toNat_eq
  rw [formA_toNat, fieldNNN_toNat, ← h, fieldOp_val]
  omega

theorem formXK_fields {w : Word} {op : BitVec 4} (h : (fieldOp w).val = op.toNat) : formXK op (fieldX w) (fieldKK w) = w := by
  apply BitVec.eq_of_toNat_eq
  rw [formXK_toNat, fieldX_val, fieldKK_toNat, ← h, fieldOp_val]
  omega

theorem formX_fields {w : Word} {op : BitVec 4} {sub : Byte} (h : (fieldOp w).val = op.toNat)
    (hk : (fieldKK w).toNat = sub.toNat) : formX op (fieldX w) sub = w := by
  rw [← BitVec.eq_of_toNat_eq hk]
  exact formXK_fields h

theorem formXYN_fields_op {w : Word} {op : BitVec 4} {n : Nibble} (h : (fieldOp w).val = op.toNat)
    (hn : (fieldN w).val = n.val) : formXYN op (fieldX w) (fieldY w) n = w := by
  have hop : (BitVec.ofFin (fieldOp w) : BitVec 4) = op := BitVec.eq_of_toNat_eq h
  rw [← Fin.ext hn, ← hop]
  exact formXYN_fields w

end Sys2Proof

namespace Sys2Proof.Claims

/-! ### Each row of the opcode map decodes to its instruction (R64) -/

/-- A row with a fixed top nibble. -/
theorem Decodes.of_top {pat : Word} {f : Word → Instr} (op : Nat) (hpat : (fieldOp pat).val = op)
    (h : ∀ w, (fieldOp w).val = op → decodeWord w = .ok (f w)) : Decodes pat 0xF000 f :=
  fun w hw => h w ((fieldOp_of_mask_F000 hw).trans hpat)

/-- A row with fixed top and low nibbles. -/
theorem Decodes.of_top_low {pat : Word} {f : Word → Instr} (op n : Nat)
    (hpat : (fieldOp pat).val = op ∧ (fieldN pat).val = n)
    (h : ∀ w, (fieldOp w).val = op → (fieldN w).val = n → decodeWord w = .ok (f w)) : Decodes pat 0xF00F f := by
  intro w hw
  obtain ⟨hop, hn⟩ := fields_of_mask_F00F hw
  exact h w (hop.trans hpat.1) ((congrArg Fin.val hn).trans hpat.2)

/-- A row with a fixed top nibble and low byte. -/
theorem Decodes.of_top_byte {pat : Word} {f : Word → Instr} (op kk : Nat)
    (hpat : (fieldOp pat).val = op ∧ (fieldKK pat).toNat = kk)
    (h : ∀ w, (fieldOp w).val = op → (fieldKK w).toNat = kk → decodeWord w = .ok (f w)) : Decodes pat 0xF0FF f := by
  intro w hw
  obtain ⟨hop, hk⟩ := fields_of_mask_F0FF hw
  exact h w (hop.trans hpat.1) (hk.trans hpat.2)

theorem decodes_cls : Decodes 0x00E0 0xFFFF fun _ => .cls := fun w hw => by
  rw [mask_FFFF] at hw
  subst hw
  decide

theorem decodes_ret : Decodes 0x00EE 0xFFFF fun _ => .ret := fun w hw => by
  rw [mask_FFFF] at hw
  subst hw
  decide

theorem decodes_jp : Decodes 0x1000 0xF000 fun w => .jp (fieldNNN w) :=
  .of_top 0x1 rfl fun w hop => by simp only [decodeWord, hop]

theorem decodes_call : Decodes 0x2000 0xF000 fun w => .call (fieldNNN w) :=
  .of_top 0x2 rfl fun w hop => by simp only [decodeWord, hop]

theorem decodes_seB : Decodes 0x3000 0xF000 fun w => .seB (fieldX w) (fieldKK w) :=
  .of_top 0x3 rfl fun w hop => by simp only [decodeWord, hop]

theorem decodes_sneB : Decodes 0x4000 0xF000 fun w => .sneB (fieldX w) (fieldKK w) :=
  .of_top 0x4 rfl fun w hop => by simp only [decodeWord, hop]

theorem decodes_ldB : Decodes 0x6000 0xF000 fun w => .ldB (fieldX w) (fieldKK w) :=
  .of_top 0x6 rfl fun w hop => by simp only [decodeWord, hop]

theorem decodes_addB : Decodes 0x7000 0xF000 fun w => .addB (fieldX w) (fieldKK w) :=
  .of_top 0x7 rfl fun w hop => by simp only [decodeWord, hop]

theorem decodes_ldI : Decodes 0xA000 0xF000 fun w => .ldI (fieldNNN w) :=
  .of_top 0xA rfl fun w hop => by simp only [decodeWord, hop]

theorem decodes_jpV0 : Decodes 0xB000 0xF000 fun w => .jpV0 (fieldNNN w) :=
  .of_top 0xB rfl fun w hop => by simp only [decodeWord, hop]

theorem decodes_rnd : Decodes 0xC000 0xF000 fun w => .rnd (fieldX w) (fieldKK w) :=
  .of_top 0xC rfl fun w hop => by simp only [decodeWord, hop]

theorem decodes_drw : Decodes 0xD000 0xF000 fun w => .drw (fieldX w) (fieldY w) (fieldN w) :=
  .of_top 0xD rfl fun w hop => by simp only [decodeWord, hop]

theorem decodes_seR : Decodes 0x5000 0xF00F fun w => .seR (fieldX w) (fieldY w) :=
  .of_top_low 0x5 0x0 (by decide) fun w hop hn => by rw [decodeWord, hop]; exact if_pos (Fin.ext hn)

theorem decodes_ldR : Decodes 0x8000 0xF00F fun w => .ldR (fieldX w) (fieldY w) :=
  .of_top_low 0x8 0x0 (by decide) fun w hop hn => by simp only [decodeWord, decodeArith, hop, hn]

theorem decodes_orR : Decodes 0x8001 0xF00F fun w => .orR (fieldX w) (fieldY w) :=
  .of_top_low 0x8 0x1 (by decide) fun w hop hn => by simp only [decodeWord, decodeArith, hop, hn]

theorem decodes_andR : Decodes 0x8002 0xF00F fun w => .andR (fieldX w) (fieldY w) :=
  .of_top_low 0x8 0x2 (by decide) fun w hop hn => by simp only [decodeWord, decodeArith, hop, hn]

theorem decodes_xorR : Decodes 0x8003 0xF00F fun w => .xorR (fieldX w) (fieldY w) :=
  .of_top_low 0x8 0x3 (by decide) fun w hop hn => by simp only [decodeWord, decodeArith, hop, hn]

theorem decodes_addR : Decodes 0x8004 0xF00F fun w => .addR (fieldX w) (fieldY w) :=
  .of_top_low 0x8 0x4 (by decide) fun w hop hn => by simp only [decodeWord, decodeArith, hop, hn]

theorem decodes_sub : Decodes 0x8005 0xF00F fun w => .sub (fieldX w) (fieldY w) :=
  .of_top_low 0x8 0x5 (by decide) fun w hop hn => by simp only [decodeWord, decodeArith, hop, hn]

theorem decodes_shr : Decodes 0x8006 0xF00F fun w => .shr (fieldX w) (fieldY w) :=
  .of_top_low 0x8 0x6 (by decide) fun w hop hn => by simp only [decodeWord, decodeArith, hop, hn]

theorem decodes_subn : Decodes 0x8007 0xF00F fun w => .subn (fieldX w) (fieldY w) :=
  .of_top_low 0x8 0x7 (by decide) fun w hop hn => by simp only [decodeWord, decodeArith, hop, hn]

theorem decodes_shl : Decodes 0x800E 0xF00F fun w => .shl (fieldX w) (fieldY w) :=
  .of_top_low 0x8 0xE (by decide) fun w hop hn => by simp only [decodeWord, decodeArith, hop, hn]

theorem decodes_sneR : Decodes 0x9000 0xF00F fun w => .sneR (fieldX w) (fieldY w) :=
  .of_top_low 0x9 0x0 (by decide) fun w hop hn => by rw [decodeWord, hop]; exact if_pos (Fin.ext hn)

theorem decodes_skp : Decodes 0xE09E 0xF0FF fun w => .skp (fieldX w) :=
  .of_top_byte 0xE 0x9E (by decide) fun w hop hk => by simp only [decodeWord, decodeKey, hop, hk]

theorem decodes_sknp : Decodes 0xE0A1 0xF0FF fun w => .sknp (fieldX w) :=
  .of_top_byte 0xE 0xA1 (by decide) fun w hop hk => by simp only [decodeWord, decodeKey, hop, hk]

theorem decodes_ldGdt : Decodes 0xF007 0xF0FF fun w => .ldGdt (fieldX w) :=
  .of_top_byte 0xF 0x07 (by decide) fun w hop hk => by simp only [decodeWord, decodeMisc, hop, hk]

theorem decodes_ldK : Decodes 0xF00A 0xF0FF fun w => .ldK (fieldX w) :=
  .of_top_byte 0xF 0x0A (by decide) fun w hop hk => by simp only [decodeWord, decodeMisc, hop, hk]

theorem decodes_ldSdt : Decodes 0xF015 0xF0FF fun w => .ldSdt (fieldX w) :=
  .of_top_byte 0xF 0x15 (by decide) fun w hop hk => by simp only [decodeWord, decodeMisc, hop, hk]

theorem decodes_ldSt : Decodes 0xF018 0xF0FF fun w => .ldSt (fieldX w) :=
  .of_top_byte 0xF 0x18 (by decide) fun w hop hk => by simp only [decodeWord, decodeMisc, hop, hk]

theorem decodes_addI : Decodes 0xF01E 0xF0FF fun w => .addI (fieldX w) :=
  .of_top_byte 0xF 0x1E (by decide) fun w hop hk => by simp only [decodeWord, decodeMisc, hop, hk]

theorem decodes_ldF : Decodes 0xF029 0xF0FF fun w => .ldF (fieldX w) :=
  .of_top_byte 0xF 0x29 (by decide) fun w hop hk => by simp only [decodeWord, decodeMisc, hop, hk]

theorem decodes_ldBcd : Decodes 0xF033 0xF0FF fun w => .ldBcd (fieldX w) :=
  .of_top_byte 0xF 0x33 (by decide) fun w hop hk => by simp only [decodeWord, decodeMisc, hop, hk]

theorem decodes_ldStm : Decodes 0xF055 0xF0FF fun w => .ldStm (fieldX w) :=
  .of_top_byte 0xF 0x55 (by decide) fun w hop hk => by simp only [decodeWord, decodeMisc, hop, hk]

theorem decodes_ldLdm : Decodes 0xF065 0xF0FF fun w => .ldLdm (fieldX w) :=
  .of_top_byte 0xF 0x65 (by decide) fun w hop hk => by simp only [decodeWord, decodeMisc, hop, hk]

/-- The words that select the row decode to instructions of its mnemonic. -/
def DecodesToItsMnemonic (r : OpcodeRow) : Prop := ∃ f, Decodes r.pat r.mask f ∧ ∀ w, (f w).mnemonic = r.mnemonic

theorem decodes_opcodeRowsPlain : ∀ r ∈ opcodeRowsPlain, DecodesToItsMnemonic r := by
  simp only [opcodeRowsPlain, List.forall_mem_cons]
  exact ⟨⟨_, decodes_cls, fun _ => rfl⟩, ⟨_, decodes_ret, fun _ => rfl⟩, ⟨_, decodes_jp, fun _ => rfl⟩,
    ⟨_, decodes_call, fun _ => rfl⟩, ⟨_, decodes_seB, fun _ => rfl⟩, ⟨_, decodes_sneB, fun _ => rfl⟩,
    ⟨_, decodes_ldB, fun _ => rfl⟩, ⟨_, decodes_addB, fun _ => rfl⟩, ⟨_, decodes_ldI, fun _ => rfl⟩,
    ⟨_, decodes_jpV0, fun _ => rfl⟩, ⟨_, decodes_rnd, fun _ => rfl⟩, ⟨_, decodes_drw, fun _ => rfl⟩, by simp⟩

theorem decodes_opcodeRowsXY : ∀ r ∈ opcodeRowsXY, DecodesToItsMnemonic r := by
  simp only [opcodeRowsXY, List.forall_mem_cons]
  exact ⟨⟨_, decodes_seR, fun _ => rfl⟩, ⟨_, decodes_ldR, fun _ => rfl⟩, ⟨_, decodes_orR, fun _ => rfl⟩,
    ⟨_, decodes_andR, fun _ => rfl⟩, ⟨_, decodes_xorR, fun _ => rfl⟩, ⟨_, decodes_addR, fun _ => rfl⟩,
    ⟨_, decodes_sub, fun _ => rfl⟩, ⟨_, decodes_shr, fun _ => rfl⟩, ⟨_, decodes_subn, fun _ => rfl⟩,
    ⟨_, decodes_shl, fun _ => rfl⟩, ⟨_, decodes_sneR, fun _ => rfl⟩, by simp⟩

theorem decodes_opcodeRowsX : ∀ r ∈ opcodeRowsX, DecodesToItsMnemonic r := by
  simp only [opcodeRowsX, List.forall_mem_cons]
  exact ⟨⟨_, decodes_skp, fun _ => rfl⟩, ⟨_, decodes_sknp, fun _ => rfl⟩, ⟨_, decodes_ldGdt, fun _ => rfl⟩,
    ⟨_, decodes_ldK, fun _ => rfl⟩, ⟨_, decodes_ldSdt, fun _ => rfl⟩, ⟨_, decodes_ldSt, fun _ => rfl⟩,
    ⟨_, decodes_addI, fun _ => rfl⟩, ⟨_, decodes_ldF, fun _ => rfl⟩, ⟨_, decodes_ldBcd, fun _ => rfl⟩,
    ⟨_, decodes_ldStm, fun _ => rfl⟩, ⟨_, decodes_ldLdm, fun _ => rfl⟩, by simp⟩

theorem decodes_opcodeTable : ∀ r ∈ opcodeTable, DecodesToItsMnemonic r := by
  simp only [opcodeTable, List.forall_mem_append]
  exact ⟨decodes_opcodeRowsPlain, decodes_opcodeRowsXY, decodes_opcodeRowsX⟩

end Sys2Proof.Claims

namespace Sys2Proof

/-! ### Decode after encode, encode after decode -/

theorem decodeWord_encode (i : Instr) : decodeWord (encode i) = .ok i := by
  cases i with
  | cls | ret => decide
  | jp | call | ldI | jpV0 => simp [encode, decodeWord]
  | seB | sneB | ldB | addB | rnd => simp [encode, decodeWord]
  | seR | sneR | drw => simp [encode, decodeWord]
  | ldR | orR | andR | xorR | addR | sub | shr | subn | shl => simp [encode, decodeWord, decodeArith]
  | skp | sknp => simp [encode, formX, decodeWord, decodeKey]
  | ldGdt | ldK | ldSdt | ldSt | addI | ldF | ldBcd | ldStm | ldLdm => simp [encode, formX, decodeWord, decodeMisc]

theorem encode_of_decodeZero {w : Word} {i : Instr} (hop : (fieldOp w).val = 0x0) (h : decodeZero w = .ok i) : encode i = w := by
  unfold decodeZero at h
  split at h <;> cases h
  case h_1 hn => exact (congrArg (formA 0x0) (BitVec.eq_of_toNat_eq (x := 0x0E0) hn.symm)).trans (formA_fields hop)
  case h_2 hn => exact (congrArg (formA 0x0) (BitVec.eq_of_toNat_eq (x := 0x0EE) hn.symm)).trans (formA_fields hop)

theorem encode_of_decodeArith {w : Word} {i : Instr} (hop : (fieldOp w).val = 0x8) (h : decodeArith w = .ok i) :
    encode i = w := by
  unfold decodeArith at h
  split at h <;> cases h <;> exact formXYN_fields_op hop ‹_›

theorem encode_of_decodeKey {w : Word} {i : Instr} (hop : (fieldOp w).val = 0xE) (h : decodeKey w = .ok i) : encode i = w := by
  unfold decodeKey at h
  split at h <;> cases h <;> exact formX_fields hop ‹_›

theorem encode_of_decodeMisc {w : Word} {i : Instr} (hop : (fieldOp w).val = 0xF) (h : decodeMisc w = .ok i) : encode i = w := by
  unfold decodeMisc at h
  split at h <;> cases h <;> exact formX_fields hop ‹_›

theorem encode_of_decodeWord {w : Word} {i : Instr} (h : decodeWord w = .ok i) : encode i = w := by
  unfold decodeWord at h
  split at h
  case h_1 hop => exact encode_of_decodeZero hop h
  case h_9 hop => exact encode_of_decodeArith hop h
  case h_15 hop => exact encode_of_decodeKey hop h
  case h_16 =>
    simp only [imp_false] at *
    exact encode_of_decodeMisc (by omega) h
  case h_6 hop | h_10 hop =>
    split at h <;> cases h
    case isTrue hn => exact formXYN_fields_op hop (congrArg Fin.val hn)
  all_goals cases h
  case h_2 hop | h_3 hop | h_11 hop | h_12 hop => exact formA_fields hop
  case h_14 hop => exact formXYN_fields_op hop rfl
  all_goals exact formXK_fields ‹_›

end Sys2Proof

namespace Sys2Proof.Claims

/-- Settles O5: each format gives back the fields it was built from, so `decodeWord` takes the instruction's own branch. -/
theorem decodeOfEncodeIsTheInstruction : Obligations.DecodeOfEncodeIsTheInstruction := by
  refine fun i rest => ⟨decodeWord_encode i, (decode_pair_ok _ _ rest i).mpr ?_⟩
  rw [joinBytes_highByte_lowByte, decodeWord_encode]

/-- Settles O6: in each branch of the decoder the word is the format of the fields that were read from it. -/
theorem encodeOfDecodeIsTheWord : Obligations.EncodeOfDecodeIsTheWord := fun _ _ => encode_of_decodeWord

/-! ### The opcode map (R63, R64) -/

/-- Every instruction's word selects a row that carries its mnemonic. -/
theorem encodesItsRow (i : Instr) : Laws.EncodesItsRow.Statement i := by
  open Laws.EncodesItsRow in
  exact match i with
  | .cls => cls | .ret => ret | .jp a => jp a | .call a => call a
  | .seB x k => seB x k | .sneB x k => sneB x k | .seR x y => seR x y | .sneR x y => sneR x y
  | .ldB x k => ldB x k | .addB x k => addB x k | .ldR x y => ldR x y | .orR x y => orR x y | .andR x y => andR x y
  | .xorR x y => xorR x y | .addR x y => addR x y | .sub x y => sub x y | .shr x y => shr x y | .subn x y => subn x y
  | .shl x y => shl x y | .ldI a => ldI a | .jpV0 a => jpV0 a | .rnd x k => rnd x k | .drw x y n => drw x y n
  | .skp x => skp x | .sknp x => sknp x | .ldGdt x => ldGdt x | .ldK x => ldK x | .ldSdt x => ldSdt x | .ldSt x => ldSt x
  | .addI x => addI x | .ldF x => ldF x | .ldBcd x => ldBcd x | .ldStm x => ldStm x | .ldLdm x => ldLdm x

/-- A word that selects a row decodes to an instruction of its mnemonic. -/
theorem decodeWord_of_selectedBy {r : OpcodeRow} (hr : r ∈ opcodeTable) {w : Word} (hw : r.selectedBy w = true) :
    ∃ i, decodeWord w = .ok i ∧ i.mnemonic = r.mnemonic := by
  obtain ⟨f, hf, hm⟩ := decodes_opcodeTable r hr
  exact ⟨f w, hf w (beq_iff_eq.mp hw), hm w⟩

/-- A mnemonic names one row. -/
theorem opcodeTable_mnemonics_nodup : (opcodeTable.map fun r => r.mnemonic).Nodup := by decide

/-- The rows a recognised word selects: by mnemonic, exactly its instruction's. -/
theorem selectedRows_of_ok {w : Word} {i : Instr} (h : decodeWord w = .ok i) :
    (opcodeTable.filter (fun r => r.selectedBy w)).map (fun r => r.mnemonic) = [i.mnemonic] := by
  have hnodup := opcodeTable_mnemonics_nodup.sublist (List.filter_sublist.map _ : List.Sublist
    ((opcodeTable.filter fun r => r.selectedBy w).map fun r => r.mnemonic) _)
  refine List.perm_singleton.mp ((List.perm_ext_iff_of_nodup hnodup (List.nodup_singleton _)).mpr fun m => ?_)
  simp only [List.mem_map, List.mem_filter, List.mem_singleton]
  constructor
  · rintro ⟨r, ⟨hr, hw⟩, rfl⟩
    obtain ⟨j, hj, hm⟩ := decodeWord_of_selectedBy hr hw
    rw [← hm, Except.ok.inj (hj.symm.trans h)]
  · rintro rfl
    obtain ⟨r, hr, hm, hw⟩ := encodesItsRow i
    exact ⟨r, ⟨hr, by rwa [encode_of_decodeWord h] at hw⟩, hm⟩

/-- Settles O7: a selected row decodes to its own instruction, and the word of an instruction selects its own row. -/
theorem decodeFollowsTheOpcodeTable : Obligations.DecodeFollowsTheOpcodeTable := by
  refine fun w => ⟨fun i h => selectedRows_of_ok h, fun e h => List.filter_eq_nil_iff.mpr fun r hr hw => ?_⟩
  obtain ⟨i, hi, -⟩ := decodeWord_of_selectedBy hr hw
  exact nomatch h.symm.trans hi

/-! ### The unrecognised patterns (R65) -/

theorem decodeZero_error (w : Word) (e : Reject) : decodeZero w = .error e ↔
    e = .machineRoutine ∧ (fieldNNN w).toNat ≠ 0x0E0 ∧ (fieldNNN w).toNat ≠ 0x0EE := by
  unfold decodeZero
  split <;> simp_all [eq_comm]

theorem decodeArith_error (w : Word) (e : Reject) : decodeArith w = .error e ↔
    e = .arithmeticTail ∧ (fieldN w).val ∈ [0x8, 0x9, 0xA, 0xB, 0xC, 0xD, 0xF] := by
  unfold decodeArith
  split
  case h_10 =>
    have hn : (fieldN w).val ∈ [0x8, 0x9, 0xA, 0xB, 0xC, 0xD, 0xF] := by
      have := (fieldN w).isLt
      simp only [imp_false, List.mem_cons, List.not_mem_nil, or_false] at *
      omega
    simp [hn, eq_comm]
  all_goals simp_all

theorem decodeKey_error (w : Word) (e : Reject) : decodeKey w = .error e ↔
    e = .keyTail ∧ (fieldKK w).toNat ∉ [0x9E, 0xA1] := by
  unfold decodeKey
  split <;> simp_all [eq_comm]

theorem decodeMisc_error (w : Word) (e : Reject) : decodeMisc w = .error e ↔
    e = .miscTail ∧ (fieldKK w).toNat ∉ [0x07, 0x0A, 0x15, 0x18, 0x1E, 0x29, 0x33, 0x55, 0x65] := by
  unfold decodeMisc
  split <;> simp_all [eq_comm]

/-- The six branches of the decoder that reject. -/
theorem decodeWord_error (w : Word) (e : Reject) : decodeWord w = .error e ↔
    ((fieldOp w).val = 0x0 ∧ decodeZero w = .error e) ∨ ((fieldOp w).val = 0x5 ∧ e = .skipEqualTail ∧ (fieldN w).val ≠ 0) ∨
    ((fieldOp w).val = 0x8 ∧ decodeArith w = .error e) ∨ ((fieldOp w).val = 0x9 ∧ e = .skipNotEqualTail ∧ (fieldN w).val ≠ 0) ∨
    ((fieldOp w).val = 0xE ∧ decodeKey w = .error e) ∨ ((fieldOp w).val = 0xF ∧ decodeMisc w = .error e) := by
  unfold decodeWord
  split
  case h_16 =>
    have hop : (fieldOp w).val = 0xF := by
      simp only [imp_false] at *
      omega
    simp [hop]
  case h_6 hop | h_10 hop =>
    split
    case isTrue hn => simp [hop, hn]
    case isFalse hn =>
      have hn : (fieldN w).val ≠ 0 := fun h => hn (Fin.ext h)
      simpa [hop, hn] using eq_comm
  all_goals simp_all

/-- Settles O8: the six branches that reject, each with its condition on the fixed field. -/
theorem rejectedPatternsAreTheSixOfTheTable : Obligations.RejectedPatternsAreTheSixOfTheTable := by
  intro w e
  have hlt := w.isLt
  rw [decodeWord_error, decodeZero_error, decodeArith_error, decodeKey_error, decodeMisc_error, fieldOp_val,
    fieldN_val, fieldKK_toNat, fieldNNN_toNat, Nat.mod_eq_of_lt (a := w.toNat / 4096) (by omega)]
  cases e <;> simp
  all_goals omega

/-- Settles O9: the words by evaluation, the fields by their values as numbers. -/
theorem sampleWordsDecodeAndFieldsAreSlices : Obligations.SampleWordsDecodeAndFieldsAreSlices := by
  refine ⟨?_, ?_, ?_, ?_, ?_, ?_, ?_, ?_, ?_, ?_, ?_, ?_, fun w =>
    ⟨fieldX_val w, fieldY_val w, fieldN_val w, fieldKK_toNat w, fieldNNN_toNat w⟩⟩
  all_goals decide

end Sys2Proof.Claims
end

section
/-! What an instruction does (R10 to R29): `exec` always answers a next state, `effect` names it, one equation per instruction.
The fields an instruction may write are its footprint; every other field is kept. -/

namespace Sys2Proof.Machine

/-- The state `exec` answers (`exec_eq_effect`). -/
def effect (i : Instr) (s : State) : State :=
  match exec i s with
  | .next t => t
  | .fault _ => s
  | .refused _ => s

/-- Every instruction completes (R28). -/
theorem exec_eq_effect (i : Instr) (s : State) : exec i s = .next (effect i s) := by cases i <;> rfl

/-! ### One equation per instruction -/

section
variable (s : State) (x y n : Nibble) (kk : Byte) (nnn : Addr)

@[simp] theorem effect_cls : effect .cls s = s.clearScreen := rfl
@[simp] theorem effect_ret : effect .ret s = if h : 0 < s.sp.val then s.popPc h else s.raise .stkunf := rfl
@[simp] theorem effect_jp : effect (.jp nnn) s = s.setPc (zextAddr nnn) := rfl
@[simp] theorem effect_call : effect (.call nnn) s =
    if h : s.sp.val < 16 then (s.push s.pc h).setPc (zextAddr nnn) else s.raise .stkovf := rfl
@[simp] theorem effect_seB : effect (.seB x kk) s = s.skipIf (s.reg x == kk) := rfl
@[simp] theorem effect_sneB : effect (.sneB x kk) s = s.skipIf (s.reg x != kk) := rfl
@[simp] theorem effect_seR : effect (.seR x y) s = s.skipIf (s.reg x == s.reg y) := rfl
@[simp] theorem effect_sneR : effect (.sneR x y) s = s.skipIf (s.reg x != s.reg y) := rfl
@[simp] theorem effect_ldB : effect (.ldB x kk) s = s.setReg x kk := rfl
@[simp] theorem effect_addB : effect (.addB x kk) s = s.setReg x (s.reg x + kk) := rfl
@[simp] theorem effect_ldR : effect (.ldR x y) s = s.setReg x (s.reg y) := rfl
@[simp] theorem effect_orR : effect (.orR x y) s = s.setReg x (s.reg x ||| s.reg y) := rfl
@[simp] theorem effect_andR : effect (.andR x y) s = s.setReg x (s.reg x &&& s.reg y) := rfl
@[simp] theorem effect_xorR : effect (.xorR x y) s = s.setReg x (s.reg x ^^^ s.reg y) := rfl
@[simp] theorem effect_addR : effect (.addR x y) s = flagThen (carryOut (s.reg x) (s.reg y)) x y (fun a b => a + b) s := rfl
@[simp] theorem effect_sub : effect (.sub x y) s = flagThen (noBorrow (s.reg x) (s.reg y)) x y (fun a b => a - b) s := rfl
@[simp] theorem effect_shr : effect (.shr x y) s = flagThen (lowBit (s.reg x)) x x (fun a _ => a >>> 1) s := rfl
@[simp] theorem effect_subn : effect (.subn x y) s = flagThen (noBorrow (s.reg y) (s.reg x)) x y (fun a b => b - a) s := rfl
@[simp] theorem effect_shl : effect (.shl x y) s = flagThen (highBit (s.reg x)) x x (fun a _ => a <<< 1) s := rfl
@[simp] theorem effect_ldI : effect (.ldI nnn) s = s.setI (zextAddr nnn) := rfl
@[simp] theorem effect_jpV0 : effect (.jpV0 nnn) s = s.setPc (offsetTarget nnn (s.reg 0)) := rfl
@[simp] theorem effect_rnd : effect (.rnd x kk) s = s.setReg x (randomByte s.nowInputs.rndIn kk) := rfl
@[simp] theorem effect_drw : effect (.drw x y n) s =
    (drawSprite (startColumn (s.reg x)) (startRow (s.reg y)) n.val (s.setReg vF 0)).pulseFbChanged := rfl
@[simp] theorem effect_skp : effect (.skp x) s = (s.checkKey (s.reg x)).skipIf (s.keyHeld (s.reg x)) := rfl
@[simp] theorem effect_sknp : effect (.sknp x) s = (s.checkKey (s.reg x)).skipIf (!s.keyHeld (s.reg x)) := rfl
@[simp] theorem effect_ldGdt : effect (.ldGdt x) s = s.setReg x s.dt := rfl
@[simp] theorem effect_ldSdt : effect (.ldSdt x) s = s.setDt (s.reg x) := rfl
@[simp] theorem effect_ldSt : effect (.ldSt x) s = s.setSt (s.reg x) := rfl
@[simp] theorem effect_addI : effect (.addI x) s = addIndex idxCarryLimit x s := rfl
@[simp] theorem effect_ldF : effect (.ldF x) s = s.setI (glyphAddress (s.reg x)) := rfl
@[simp] theorem effect_ldBcd : effect (.ldBcd x) s =
    ((s.memWrite (s.elemAddress 0) (bcdHundreds (s.reg x))).memWrite (s.elemAddress 1) (bcdTens (s.reg x))).memWrite
      (s.elemAddress 2) (bcdUnits (s.reg x)) := rfl
@[simp] theorem effect_ldStm : effect (.ldStm x) s = (nibblesUpTo x).foldl storeReg s := rfl
@[simp] theorem effect_ldLdm : effect (.ldLdm x) s = (nibblesUpTo x).foldl loadReg s := rfl

/-- `LD.K` while no key is held (R142). -/
theorem effect_ldK_none {s : State} (h : s.firstKey = none) : effect (.ldK x) s = s.setPc (s.pc - 2) := by
  simp only [effect, exec, execLdK, h]

/-- `LD.K` with a key held (R142). -/
theorem effect_ldK_some {s : State} {k : Nibble} (h : s.firstKey = some k) :
    effect (.ldK x) s = s.setReg x (BitVec.ofNat 8 k.val) := by
  simp only [effect, exec, execLdK, h]

end

/-! ### Footprints -/

/-- The fields of the state that some instruction writes. -/
inductive Field where
  | v | i | pc | stack | sp | dt | st | fb | mem | err | fbChanged
deriving DecidableEq

/-- The fields an instruction may write. -/
def writes : Instr → List Field
  | .cls => [.fb]
  | .ret => [.pc, .sp, .err]
  | .call _ => [.pc, .stack, .sp, .err]
  | .jp _ | .jpV0 _ | .seB _ _ | .sneB _ _ | .seR _ _ | .sneR _ _ => [.pc]
  | .skp _ | .sknp _ => [.pc, .err]
  | .ldB _ _ | .addB _ _ | .ldR _ _ | .orR _ _ | .andR _ _ | .xorR _ _ | .rnd _ _ | .ldGdt _ => [.v]
  | .addR _ _ | .sub _ _ | .shr _ _ | .subn _ _ | .shl _ _ => [.v]
  | .ldK _ => [.v, .pc]
  | .addI _ => [.v, .i]
  | .ldI _ | .ldF _ => [.i]
  | .drw _ _ _ => [.v, .fb, .err, .fbChanged]
  | .ldSdt _ => [.dt]
  | .ldSt _ => [.st]
  | .ldBcd _ | .ldStm _ => [.mem, .err]
  | .ldLdm _ => [.v, .err]

/-- `t` is `s` but for the fields `fs`. -/
def KeepsBut (fs : List Field) (s t : State) : Prop :=
  t = { s with
    v := if .v ∈ fs then t.v else s.v
    i := if .i ∈ fs then t.i else s.i
    pc := if .pc ∈ fs then t.pc else s.pc
    stack := if .stack ∈ fs then t.stack else s.stack
    sp := if .sp ∈ fs then t.sp else s.sp
    dt := if .dt ∈ fs then t.dt else s.dt
    st := if .st ∈ fs then t.st else s.st
    fb := if .fb ∈ fs then t.fb else s.fb
    mem := if .mem ∈ fs then t.mem else s.mem
    err := if .err ∈ fs then t.err else s.err
    fbChanged := if .fbChanged ∈ fs then t.fbChanged else s.fbChanged }

namespace KeepsBut

variable {fs : List Field} {s t : State} (h : KeepsBut fs s t)
include h

theorem v (hf : .v ∉ fs) : t.v = s.v := (congrArg State.v h).trans (if_neg hf)
theorem i (hf : .i ∉ fs) : t.i = s.i := (congrArg State.i h).trans (if_neg hf)
theorem pc (hf : .pc ∉ fs) : t.pc = s.pc := (congrArg State.pc h).trans (if_neg hf)
theorem stack (hf : .stack ∉ fs) : t.stack = s.stack := (congrArg State.stack h).trans (if_neg hf)
theorem sp (hf : .sp ∉ fs) : t.sp = s.sp := (congrArg State.sp h).trans (if_neg hf)
theorem dt (hf : .dt ∉ fs) : t.dt = s.dt := (congrArg State.dt h).trans (if_neg hf)
theorem st (hf : .st ∉ fs) : t.st = s.st := (congrArg State.st h).trans (if_neg hf)
theorem fb (hf : .fb ∉ fs) : t.fb = s.fb := (congrArg State.fb h).trans (if_neg hf)
theorem mem (hf : .mem ∉ fs) : t.mem = s.mem := (congrArg State.mem h).trans (if_neg hf)
theorem err (hf : .err ∉ fs) : t.err = s.err := (congrArg State.err h).trans (if_neg hf)
theorem fbChanged (hf : .fbChanged ∉ fs) : t.fbChanged = s.fbChanged := (congrArg State.fbChanged h).trans (if_neg hf)
theorem ir : t.ir = s.ir := (congrArg State.ir h).trans rfl
theorem tickP : t.tickP = s.tickP := (congrArg State.tickP h).trans rfl
theorem ucnt : t.ucnt = s.ucnt := (congrArg State.ucnt h).trans rfl
theorem mode : t.mode = s.mode := (congrArg State.mode h).trans rfl
theorem inputs : t.inputs = s.inputs := (congrArg State.inputs h).trans rfl
theorem clock : t.clock = s.clock := (congrArg State.clock h).trans rfl

end KeepsBut

/-- Every instruction writes its footprint alone. -/
theorem effect_keeps (i : Instr) (s : State) : KeepsBut (writes i) s (effect i s) := by
  cases i with
  | ret | call => simp only [effect_ret, effect_call]; split <;> rfl
  | seB | sneB | seR | sneR => simp only [effect_seB, effect_sneB, effect_seR, effect_sneR, skipIf_eq]; rfl
  | skp | sknp => simp only [effect_skp, effect_sknp, skipIf_eq, checkKey_eq]; rfl
  | ldK x =>
    cases hk : s.firstKey with
    | none => rw [effect_ldK_none x hk]; rfl
    | some k => rw [effect_ldK_some x hk]; rfl
  | drw x y n =>
    have := (drawSprite_spec (startColumn (s.reg x)) (startRow (s.reg y)) (s.setReg vF 0) (n := n.val) (by omega)).1.rest
    exact congrArg State.pulseFbChanged this
  | ldBcd => simp only [effect_ldBcd, memWrite_eq]; rfl
  | ldStm x => exact (storeRegs_spec _ (nodup_nibblesUpTo x) s).1
  | ldLdm x => exact (loadRegs_spec (nibblesUpTo x) s).1
  | _ => rfl

end Sys2Proof.Machine
end

section
/-! The tables of the instructions: error bits (R161), destinations and flags (R10, R11), `PC` (R13), and who writes the other
fields, read off the footprints. -/

namespace Sys2Proof.Machine

open Sys2Proof.Claims

/-! ### Which instructions write a field -/

theorem writes_mem {i : Instr} (h : .mem ∈ writes i) : (∃ x, i = .ldBcd x) ∨ ∃ x, i = .ldStm x := by
  cases i <;> simp [writes] at h ⊢

theorem writes_fbChanged {i : Instr} (h : .fbChanged ∈ writes i) : ∃ x y n, i = .drw x y n := by
  cases i <;> simp [writes] at h ⊢

theorem writes_fb {i : Instr} (h : .fb ∈ writes i) : i = .cls ∨ ∃ x y n, i = .drw x y n := by
  cases i <;> simp [writes] at h ⊢

theorem writes_stack {i : Instr} (h : .stack ∈ writes i) : ∃ nnn, i = .call nnn := by
  cases i <;> simp [writes] at h ⊢

theorem writes_sp {i : Instr} (h : .sp ∈ writes i) : (∃ nnn, i = .call nnn) ∨ i = .ret := by
  cases i <;> simp [writes] at h ⊢

theorem writes_dt {i : Instr} (h : .dt ∈ writes i) : ∃ x, i = .ldSdt x := by
  cases i <;> simp [writes] at h ⊢

theorem writes_st {i : Instr} (h : .st ∈ writes i) : ∃ x, i = .ldSt x := by
  cases i <;> simp [writes] at h ⊢

theorem writes_i {i : Instr} (h : .i ∈ writes i) : (∃ nnn, i = .ldI nnn) ∨ (∃ x, i = .ldF x) ∨ ∃ x, i = .addI x := by
  cases i <;> simp [writes] at h ⊢

/-! ### Reads through the shared operations -/

@[simp] theorem recorded_skipIf (s : State) (c : Bool) (d : ErrCond) : (s.skipIf c).recorded d = s.recorded d := by
  rw [skipIf_eq]; rfl

/-- Reading a pixel looks at the framebuffer alone. -/
theorem pixel_congr {s t : State} (h : s.fb = t.fb) (row : Fin 32) (col : Fin 64) : s.pixel row col = t.pixel row col := by
  simp [State.pixel, h]

/-- An element address is out of range when it lies above `0x0FFF` (R47). -/
@[simp] theorem outOfRange_elemAddress (s : State) (k : Nat) :
    outOfRange (s.elemAddress k) = true ↔ 0x0FFF < (s.i + BitVec.ofNat 16 k).toNat := decide_eq_true_iff

/-! ### Error bits (R161) -/

/-! The rows of the table. -/

section
variable (s : State) (x y n : Nibble) (nnn : Addr) (c : ErrCond)

theorem conditionHolds_call : conditionHolds (.call nnn) s c ↔ c = .stkovf ∧ s.sp.val = 16 := by
  cases c <;> simp [conditionHolds]

theorem conditionHolds_ret : conditionHolds .ret s c ↔ c = .stkunf ∧ s.sp.val = 0 := by
  cases c <;> simp [conditionHolds]

theorem conditionHolds_skp : conditionHolds (.skp x) s c ↔ c = .key ∧ 15 < (s.reg x).toNat := by
  cases c <;> simp [conditionHolds]

theorem conditionHolds_sknp : conditionHolds (.sknp x) s c ↔ c = .key ∧ 15 < (s.reg x).toNat := by
  cases c <;> simp [conditionHolds]

theorem conditionHolds_drw : conditionHolds (.drw x y n) s c ↔
    c = .addr ∧ ∃ k, k < n.val ∧ 0x0FFF < (s.i + BitVec.ofNat 16 k).toNat := by
  cases c <;> simp [conditionHolds]

theorem conditionHolds_ldBcd : conditionHolds (.ldBcd x) s c ↔
    c = .addr ∧ ∃ k, k < 3 ∧ 0x0FFF < (s.i + BitVec.ofNat 16 k).toNat := by
  cases c <;> simp [conditionHolds]

theorem conditionHolds_ldStm : conditionHolds (.ldStm x) s c ↔
    c = .addr ∧ ∃ k, k ≤ x.val ∧ 0x0FFF < (s.i + BitVec.ofNat 16 k).toNat := by
  cases c <;> simp [conditionHolds]

theorem conditionHolds_ldLdm : conditionHolds (.ldLdm x) s c ↔
    c = .addr ∧ ∃ k, k ≤ x.val ∧ 0x0FFF < (s.i + BitVec.ofNat 16 k).toNat := by
  cases c <;> simp [conditionHolds]

end

/-- A transfer of the registers up to `x` meets an address out of range when some offset up to `x` gives one. -/
theorem exists_elemAddress_outOfRange (s : State) (x : Nibble) :
    (∃ k ∈ nibblesUpTo x, outOfRange (s.elemAddress k.val) = true) ↔
      ∃ k, k ≤ x.val ∧ 0x0FFF < (s.i + BitVec.ofNat 16 k).toNat := by
  simp only [mem_nibblesUpTo, outOfRange_elemAddress]
  constructor
  · rintro ⟨k, hk, h⟩
    exact ⟨k.val, hk, h⟩
  · rintro ⟨k, hk, h⟩
    exact ⟨⟨k, by omega⟩, hk, h⟩

/-- `CALL` records `STKOVF` on a full stack alone (R82). -/
theorem recorded_call (nnn : Addr) (s : State) (c : ErrCond) :
    (effect (.call nnn) s).recorded c = true ↔ s.recorded c = true ∨ (c = .stkovf ∧ s.sp.val = 16) := by
  rw [effect_call]
  split
  case isTrue h => exact (or_iff_left fun ⟨_, h16⟩ => by omega).symm
  case isFalse h =>
    have h16 : s.sp.val = 16 := by omega
    simp [h16, eq_comm (a := c)]

/-- `RET` records `STKUNF` on an empty stack alone (R83). -/
theorem recorded_ret (s : State) (c : ErrCond) :
    (effect .ret s).recorded c = true ↔ s.recorded c = true ∨ (c = .stkunf ∧ s.sp.val = 0) := by
  rw [effect_ret]
  split
  case isTrue h => exact (or_iff_left fun ⟨_, h0⟩ => by omega).symm
  case isFalse h =>
    have h0 : s.sp.val = 0 := by omega
    simp [h0, eq_comm (a := c)]

/-- `DRW` records `ADDR` when the address of a row's byte is out of range (R130, R47). -/
theorem recorded_drw (x y n : Nibble) (s : State) (c : ErrCond) : (effect (.drw x y n) s).recorded c = true ↔
    s.recorded c = true ∨ (c = .addr ∧ ∃ k, k < n.val ∧ 0x0FFF < (s.i + BitVec.ofNat 16 k).toNat) := by
  have h := (drawSprite_spec (startColumn (s.reg x)) (startRow (s.reg y)) (s.setReg vF 0) (n := n.val) (by omega)).2.2.2 c
  simp only [outOfRange_elemAddress] at h
  exact h

/-- `LD.BCD` records `ADDR` when one of its three addresses is out of range (R150, R47). -/
theorem recorded_ldBcd (x : Nibble) (s : State) (c : ErrCond) : (effect (.ldBcd x) s).recorded c = true ↔
    s.recorded c = true ∨ (c = .addr ∧ ∃ k, k < 3 ∧ 0x0FFF < (s.i + BitVec.ofNat 16 k).toNat) := by
  have hthree : (∃ k, k < 3 ∧ outOfRange (s.elemAddress k) = true) ↔ outOfRange (s.elemAddress 0) = true ∨
      outOfRange (s.elemAddress 1) = true ∨ outOfRange (s.elemAddress 2) = true := by
    simp only [Nat.lt_succ_iff_lt_or_eq, Nat.not_lt_zero, false_or, or_and_right, exists_or, exists_eq_left, or_assoc]
  simp only [outOfRange_elemAddress] at hthree
  rw [hthree, effect_ldBcd]
  simp only [recorded_memWrite, Bool.or_eq_true, Bool.and_eq_true, decide_eq_true_eq, outOfRange_elemAddress]
  tauto

/-- `LD.STM` records `ADDR` when one of its addresses is out of range (R151, R47). -/
theorem recorded_ldStm (x : Nibble) (s : State) (c : ErrCond) : (effect (.ldStm x) s).recorded c = true ↔
    s.recorded c = true ∨ (c = .addr ∧ ∃ k, k ≤ x.val ∧ 0x0FFF < (s.i + BitVec.ofNat 16 k).toNat) := by
  rw [← exists_elemAddress_outOfRange]
  exact (storeRegs_spec (nibblesUpTo x) (nodup_nibblesUpTo x) s).2.2.2 c

/-- `LD.LDM` records `ADDR` when one of its addresses is out of range (R152, R47). -/
theorem recorded_ldLdm (x : Nibble) (s : State) (c : ErrCond) : (effect (.ldLdm x) s).recorded c = true ↔
    s.recorded c = true ∨ (c = .addr ∧ ∃ k, k ≤ x.val ∧ 0x0FFF < (s.i + BitVec.ofNat 16 k).toNat) := by
  rw [← exists_elemAddress_outOfRange]
  exact (loadRegs_spec (nibblesUpTo x) s).2.2 c

/-- The table of R161. -/
theorem recorded_effect (i : Instr) (s : State) (c : ErrCond) :
    (effect i s).recorded c = true ↔ s.recorded c = true ∨ conditionHolds i s c := by
  cases i with
  | call nnn => rw [recorded_call, conditionHolds_call]
  | ret => rw [recorded_ret, conditionHolds_ret]
  | skp x => simp [conditionHolds_skp]
  | sknp x => simp [conditionHolds_sknp]
  | drw x y n => rw [recorded_drw, conditionHolds_drw]
  | ldBcd x => rw [recorded_ldBcd, conditionHolds_ldBcd]
  | ldStm x => rw [recorded_ldStm, conditionHolds_ldStm]
  | ldLdm x => rw [recorded_ldLdm, conditionHolds_ldLdm]
  | _ =>
    exact (Bool.eq_iff_iff.mp (recorded_congr ((effect_keeps _ s).err (by simp [writes])) c)).trans (or_iff_left id).symm

/-! ### `PC` (R13) -/

/-- Whether a key is held, as the claims say it (R146). -/
theorem keyHeld_eq (s : State) (b : Byte) : s.keyHeld b = held s b := by
  simp [State.keyHeld, State.keyDown, keyNumber, held]

/-- No key is found exactly when none is held (R142). -/
theorem firstKey_eq_none (s : State) : s.firstKey = none ↔ s.nowInputs.keyIn = 0 := by
  have hall : ∀ k : Nibble, k ∈ nibbles := by decide
  rw [State.firstKey, List.find?_eq_none]
  constructor
  · intro h
    refine BitVec.eq_of_getLsbD_eq fun k hk => ?_
    simpa [State.keyDown] using h ⟨k, hk⟩ (hall _)
  · intro h k _
    simp [State.keyDown, h]

section
variable (s : State) (x y : Nibble) (kk : Byte)

theorem pcAfter_seB : pcAfter (.seB x kk) s = if s.reg x = kk then s.pc + 2 else s.pc := rfl
theorem pcAfter_sneB : pcAfter (.sneB x kk) s = if s.reg x = kk then s.pc else s.pc + 2 := rfl
theorem pcAfter_seR : pcAfter (.seR x y) s = if s.reg x = s.reg y then s.pc + 2 else s.pc := rfl
theorem pcAfter_sneR : pcAfter (.sneR x y) s = if s.reg x = s.reg y then s.pc else s.pc + 2 := rfl
theorem pcAfter_skp : pcAfter (.skp x) s = if held s (s.reg x) = true then s.pc + 2 else s.pc := rfl
theorem pcAfter_sknp : pcAfter (.sknp x) s = if held s (s.reg x) = true then s.pc else s.pc + 2 := rfl

end

/-- The class table of R13. -/
theorem pc_effect (i : Instr) (s : State) : (effect i s).pc = pcAfter i s := by
  cases i with
  | jp nnn | jpV0 nnn => rfl
  | call nnn =>
    rw [effect_call]
    split
    case isTrue h => exact (if_neg (show ¬ s.sp.val = 16 by omega)).symm
    case isFalse h => exact (if_pos (show s.sp.val = 16 by omega)).symm
  | ret =>
    rw [effect_ret]
    split
    case isTrue h =>
      have hslot : s.stack[s.sp.val - 1]? = some s.stack[s.sp.val - 1] := Vector.getElem?_eq_getElem (by omega)
      exact (congrArg (Option.getD · 0) hslot).symm.trans (if_neg (show ¬ s.sp.val = 0 by omega)).symm
    case isFalse h => exact (if_pos (show s.sp.val = 0 by omega)).symm
  | seB x kk => simp [skipIf_eq, pcAfter_seB]
  | sneB x kk => simp [skipIf_eq, pcAfter_sneB]
  | seR x y => simp [skipIf_eq, pcAfter_seR]
  | sneR x y => simp [skipIf_eq, pcAfter_sneR]
  | skp x => simp [skipIf_eq, checkKey_eq, keyHeld_eq, pcAfter_skp]
  | sknp x => cases hk : held s (s.reg x) <;> simp [skipIf_eq, checkKey_eq, keyHeld_eq, pcAfter_sknp, hk]
  | ldK x =>
    cases hk : s.firstKey with
    | none =>
      rw [effect_ldK_none x hk]
      exact (if_pos ((firstKey_eq_none s).mp hk)).symm
    | some k =>
      rw [effect_ldK_some x hk]
      exact (if_neg fun h => by simp [(firstKey_eq_none s).mpr h] at hk).symm
  | _ => exact (effect_keeps _ s).pc (by simp [writes])

/-! ### Registers (R10, R11) -/

theorem reg_setReg_of_ne {x r : Nibble} (h : r ≠ x) (s : State) (b : Byte) : (s.setReg x b).reg r = s.reg r := by
  rw [reg_setReg, if_neg h.symm]

theorem reg_flagThen_of_ne {x r : Nibble} (hx : r ≠ x) (hf : r ≠ vF) (c : Bool) (y : Nibble) (op : Byte → Byte → Byte)
    (s : State) : (flagThen c x y op s).reg r = s.reg r := by
  rw [reg_flagThen, if_neg hx.symm, if_neg hf.symm]

/-- `ADD.I` changes no register but `VF` (R123). -/
theorem reg_addIndex (limit : CarryLimit) (x r : Nibble) (s : State) :
    (addIndex limit x s).reg r = if vF = r then flagByte (indexCarry limit s.i (s.reg x)) else s.reg r := by
  simp [addIndex, State.setFlag]

/-- `DRW` changes no register but `VF` (R130). -/
theorem reg_drw_of_ne {r : Nibble} (hf : r ≠ vF) (x y n : Nibble) (s : State) :
    (effect (.drw x y n) s).reg r = s.reg r := by
  have h := (drawSprite_spec (startColumn (s.reg x)) (startRow (s.reg y)) (s.setReg vF 0) (n := n.val) (by omega)).2.2.1 r
  exact (h.trans (if_neg fun e => hf e.1)).trans (reg_setReg_of_ne hf s 0)

/-- A register that is neither a destination nor the flag of a flag writer stays. -/
theorem reg_effect_of_not_written {i : Instr} {r : Nibble} (hdst : isDestination i r = false)
    (hflag : r = 0xF → writesFlag i = false) (s : State) : (effect i s).reg r = s.reg r := by
  have hvF : writesFlag i = true → r ≠ vF := fun hw hr => by simp [hflag hr] at hw
  cases i with
  | ldB | addB | ldR | orR | andR | xorR | rnd | ldGdt => exact reg_setReg_of_ne (of_decide_eq_false hdst) ..
  | addR | sub | shr | subn | shl => exact reg_flagThen_of_ne (of_decide_eq_false hdst) (hvF rfl) ..
  | addI x => rw [effect_addI, reg_addIndex, if_neg (hvF rfl).symm]
  | drw x y n => exact reg_drw_of_ne (hvF rfl) x y n s
  | ldK x =>
    cases hk : s.firstKey with
    | none => rw [effect_ldK_none x hk, reg_setPc]
    | some k => rw [effect_ldK_some x hk, reg_setReg_of_ne (of_decide_eq_false hdst)]
  | ldLdm x =>
    have hnot : r ∉ nibblesUpTo x := fun h => of_decide_eq_false hdst ((mem_nibblesUpTo x r).mp h)
    exact ((loadRegs_spec (nibblesUpTo x) s).2.1 r).trans (if_neg hnot)
  | _ => exact reg_congr ((effect_keeps _ s).v (by simp [writes])) r

end Sys2Proof.Machine

namespace Sys2Proof.Claims

open Sys2Proof.Machine

/-- Settles O16: the table row by row, and no `ERR` in any other footprint. -/
theorem errorBitsFollowTheConditionTable : Obligations.ErrorBitsFollowTheConditionTable :=
  fun i s => ⟨_, exec_eq_effect i s, recorded_effect i s⟩

/-- Settles O19: a register write reaches its own register alone. -/
theorem registersChangeOnlyAsDestinationOrFlag : Obligations.RegistersChangeOnlyAsDestinationOrFlag :=
  fun i s _ hdst hflag => ⟨_, exec_eq_effect i s, reg_effect_of_not_written hdst hflag s⟩

/-- Settles O20: memory is in the footprint of the two stores alone. -/
theorem onlyBcdAndBulkStoreWriteMemory : Obligations.OnlyBcdAndBulkStoreWriteMemory := by
  refine fun i s hbcd hstm => ⟨_, exec_eq_effect i s, fun a => ?_⟩
  rw [(effect_keeps i s).mem fun h => (writes_mem h).elim (fun ⟨x, e⟩ => hbcd x e) (fun ⟨x, e⟩ => hstm x e)]

/-- Settles O21: the framebuffer is in the footprint of `CLS` and `DRW` alone, the pulse in that of `DRW` alone. -/
theorem onlyClearAndDrawWriteTheScreen : Obligations.OnlyClearAndDrawWriteTheScreen := by
  refine fun i s hdrw => ⟨_, exec_eq_effect i s, ?_, fun hcls => pixel_congr ?_⟩
  · exact (effect_keeps i s).fbChanged fun h => (writes_fbChanged h).elim fun x ⟨y, n, e⟩ => hdrw x y n e
  · exact (effect_keeps i s).fb fun h => (writes_fb h).elim hcls fun ⟨x, y, n, e⟩ => hdrw x y n e

/-- Settles O22: the slots are in the footprint of `CALL` alone, `SP` in that of `CALL` and `RET`, which hold nothing else but
`PC` and `ERR`. -/
theorem onlyCallAndReturnTouchTheStack : Obligations.OnlyCallAndReturnTouchTheStack := by
  refine fun i s => ⟨_, exec_eq_effect i s, fun hcall => ?_, fun hcall hret => ?_, ?_⟩
  · exact (effect_keeps i s).stack fun h => (writes_stack h).elim hcall
  · exact (effect_keeps i s).sp fun h => (writes_sp h).elim (fun ⟨nnn, e⟩ => hcall nnn e) hret
  · rintro (⟨nnn, rfl⟩ | rfl)
    · exact effect_keeps (.call nnn) s
    · rw [(effect_keeps .ret s).stack (by simp [writes])]
      exact effect_keeps .ret s

/-- Settles O23: each field is in the footprint of its own writers alone, and six fields are in none. -/
theorem systemRegistersHaveTheirOwnWriters : Obligations.SystemRegistersHaveTheirOwnWriters := by
  intro i s
  have h := effect_keeps i s
  refine ⟨_, exec_eq_effect i s, h.ir, h.tickP, h.ucnt, h.mode, h.inputs, h.clock, fun hdt => ?_, fun hst => ?_,
    fun hldI hldF haddI => ?_⟩
  · exact h.dt fun hw => (writes_dt hw).elim hdt
  · exact h.st fun hw => (writes_st hw).elim hst
  · exact h.i fun hw => (writes_i hw).elim (fun ⟨nnn, e⟩ => hldI nnn e)
      (Or.rec (fun ⟨x, e⟩ => hldF x e) fun ⟨x, e⟩ => haddI x e)

/-- Settles O24: the instructions that write `PC`, each by its meaning; the others by their footprint. -/
theorem pcFollowsTheClassTable : Obligations.PcFollowsTheClassTable :=
  fun i s => ⟨_, exec_eq_effect i s, pc_effect i s⟩

end Sys2Proof.Claims
end

section
/-! The step (R27, R28): while running it always answers the state its three phases make, and each phase keeps what it does not
write. From this the invariant, sticky errors, the tick and the timers, and a program at rest. -/

namespace Sys2Proof.Machine

open Sys2Proof.Claims

/-! ### The step as a state -/

/-- The state `execute` answers (`execute_eq_executed`). -/
def executed (s : State) : State :=
  match decodeWord s.ir with
  | .ok i => effect i s
  | .error _ => unrecognised s

theorem executed_of_ok {s : State} {i : Instr} (h : decodeWord s.ir = .ok i) : executed s = effect i s := by
  simp only [executed, h]

theorem executed_of_error {s : State} {e : Reject} (h : decodeWord s.ir = .error e) : executed s = unrecognised s := by
  simp only [executed, h]

/-- Executing is running an instruction or counting an unrecognised word (R27, R65). -/
theorem executed_cases (s : State) : (∃ i, decodeWord s.ir = .ok i ∧ executed s = effect i s) ∨ executed s = unrecognised s := by
  cases h : decodeWord s.ir with
  | ok i => exact .inl ⟨i, rfl, executed_of_ok h⟩
  | error e => exact .inr (executed_of_error h)

theorem execute_eq_executed (s : State) : execute s = .next (executed s) := by
  obtain ⟨i, hi, hs⟩ | ⟨e, he, hs⟩ := execute_cases s
  · rw [hs, executed_of_ok hi, exec_eq_effect]
  · rw [hs, executed_of_error he]

/-- A step while running completes (R27, R28). -/
theorem step_run_next {s : State} (h : s.mode = .run) :
    step s = .next (endStep (timerPhase (executed (fetch (beginStep s))))) := by
  rw [step_run h, threePhases, execute_eq_executed]

/-- What the step of a recognised word answers. -/
theorem step_of_ok {s : State} {i : Instr} (hrun : s.mode = .run)
    (hi : decode [s.readByte s.pc, s.readByte (s.pc + 1)] = .ok (i, [])) :
    step s = .next (endStep (timerPhase (effect i (fetch (beginStep s))))) := by
  rw [step_run_next hrun, executed_of_ok]
  rw [fetch_ir]
  exact (decode_pair_ok _ _ [] i).mp hi

/-- What the step of an unrecognised word answers. -/
theorem step_of_error {s : State} {e : Reject} (hrun : s.mode = .run)
    (he : decode [s.readByte s.pc, s.readByte (s.pc + 1)] = .error e) :
    step s = .next (endStep (timerPhase (unrecognised (fetch (beginStep s))))) := by
  rw [step_run_next hrun, executed_of_error]
  rw [fetch_ir]
  exact (decode_pair_error _ _ [] e).mp he

/-! ### What the last phases keep -/

section
variable (s : State)

@[simp] theorem timerPhase_v : (timerPhase s).v = s.v := by rw [timerPhase_eq]
@[simp] theorem timerPhase_mem : (timerPhase s).mem = s.mem := by rw [timerPhase_eq]
@[simp] theorem timerPhase_err : (timerPhase s).err = s.err := by rw [timerPhase_eq]
@[simp] theorem timerPhase_ucnt : (timerPhase s).ucnt = s.ucnt := by rw [timerPhase_eq]
@[simp] theorem timerPhase_mode : (timerPhase s).mode = s.mode := by rw [timerPhase_eq]
@[simp] theorem timerPhase_inputs : (timerPhase s).inputs = s.inputs := by rw [timerPhase_eq]
@[simp] theorem timerPhase_clock : (timerPhase s).clock = s.clock := by rw [timerPhase_eq]

@[simp] theorem recorded_endStep_timerPhase (c : ErrCond) : (endStep (timerPhase s)).recorded c = s.recorded c :=
  recorded_congr (timerPhase_err s) c

@[simp] theorem reg_endStep_timerPhase (x : Nibble) : (endStep (timerPhase s)).reg x = s.reg x :=
  reg_congr (timerPhase_v s) x

theorem endStep_timerPhase_dt_toNat : (endStep (timerPhase s)).dt.toNat = s.dt.toNat - if s.tickP then 1 else 0 := by
  cases h : s.tickP <;> simp [endStep, timerPhase_eq, h, countDown_toNat]

theorem endStep_timerPhase_st_toNat : (endStep (timerPhase s)).st.toNat = s.st.toNat - if s.tickP then 1 else 0 := by
  cases h : s.tickP <;> simp [endStep, timerPhase_eq, h, countDown_toNat]

end

/-! ### What execution keeps -/

/-- Execution keeps the mode, the inputs and the step count. -/
theorem executed_mode (s : State) : (executed s).mode = s.mode := by
  obtain ⟨i, -, h⟩ | h := executed_cases s <;> rw [h]
  · exact (effect_keeps i s).mode
  · rfl

theorem executed_inputs (s : State) : (executed s).inputs = s.inputs := by
  obtain ⟨i, -, h⟩ | h := executed_cases s <;> rw [h]
  · exact (effect_keeps i s).inputs
  · rfl

theorem executed_clock (s : State) : (executed s).clock = s.clock := by
  obtain ⟨i, -, h⟩ | h := executed_cases s <;> rw [h]
  · exact (effect_keeps i s).clock
  · rfl

/-- Execution clears no error bit (R22). -/
theorem executed_recorded {s : State} {c : ErrCond} (h : s.recorded c = true) : (executed s).recorded c = true := by
  obtain ⟨i, -, hs⟩ | hs := executed_cases s <;> rw [hs]
  · exact (recorded_effect i s c).mpr (.inl h)
  · show (s.raise .undef).recorded c = true
    simp [h]

/-- Execution never lowers the count (R23). -/
theorem executed_ucnt (s : State) : s.ucnt.toNat ≤ (executed s).ucnt.toNat := by
  obtain ⟨i, -, h⟩ | h := executed_cases s <;> rw [h]
  · rw [(effect_keeps i s).ucnt]
  · rw [unrecognised_eq, saturatingSucc_toNat]
    have := s.ucnt.isLt
    omega

/-! ### The load port (R54) -/

theorem loadWrite_of_run {s : State} (h : s.mode = .run) (a : Addr) (b : Byte) : loadWrite a b s = s := by
  simp only [loadWrite, h]

theorem loadWrite_of_low {a : Addr} (h : a.toNat < 0x200) (b : Byte) (s : State) : loadWrite a b s = s := by
  cases hm : s.mode with
  | run => exact loadWrite_of_run hm a b
  | load =>
    simp only [loadWrite, hm]
    exact if_neg (Nat.not_le.mpr h)

theorem loadWrite_of_load {s : State} {a : Addr} (h : s.mode = .load) (ha : 0x200 ≤ a.toNat) (b : Byte) :
    loadWrite a b s = { s with mem := Memory.write s.mem a.toNat b } := by
  simp only [loadWrite, h]
  exact if_pos ha

/-- A write on the load port is ignored or writes its one cell. -/
theorem loadWrite_cases (a : Addr) (b : Byte) (s : State) :
    loadWrite a b s = s ∨ loadWrite a b s = { s with mem := Memory.write s.mem a.toNat b } := by
  cases hm : s.mode with
  | run => exact .inl (loadWrite_of_run hm a b)
  | load =>
    rw [← hm]
    exact (Nat.lt_or_ge a.toNat 0x200).imp (loadWrite_of_low · b s) (loadWrite_of_load hm · b)

/-- A write on the load port changes memory alone. -/
theorem loadWrite_eq (a : Addr) (b : Byte) (s : State) : loadWrite a b s = { s with mem := (loadWrite a b s).mem } := by
  rcases loadWrite_cases a b s with h | h <;> rw [h]

/-! ### The invariant -/

/-- A store keeps memory canonical. -/
theorem storeRegs_wf (l : List Nibble) {s : State} (h : Memory.wf s.mem) : Memory.wf (l.foldl storeReg s).mem := by
  induction l generalizing s with
  | nil => exact h
  | cons k l ih => exact ih (Memory.write_wf _ (cellOf_lt _) h)

/-- Every instruction keeps memory canonical. -/
theorem effect_wf (i : Instr) {s : State} (h : Memory.wf s.mem) : Memory.wf (effect i s).mem := by
  cases i with
  | ldBcd x =>
    exact Memory.write_wf _ (cellOf_lt _) (Memory.write_wf _ (cellOf_lt _) (Memory.write_wf _ (cellOf_lt _) h))
  | ldStm x => exact storeRegs_wf _ h
  | _ => rwa [(effect_keeps _ s).mem (by simp [writes])]

/-- No instruction records `UNDEF` (R161): only unrecognised words do. -/
theorem not_conditionHolds_undef (i : Instr) (s : State) : ¬ conditionHolds i s .undef := by cases i <;> exact id

theorem effect_undef (i : Instr) (s : State) : (effect i s).recorded .undef = s.recorded .undef := by
  rw [Bool.eq_iff_iff, recorded_effect, or_iff_left (not_conditionHolds_undef i s)]

/-- The count of an unrecognised word is not 0. -/
theorem saturatingSucc_ne_zero (c : BitVec 16) : saturatingSucc c ≠ 0 := by
  intro h
  have hmin := saturatingSucc_toNat c
  rw [h, show (0 : BitVec 16).toNat = 0 from rfl] at hmin
  omega

/-- The invariant looks at memory, `UNDEF` and the count alone. -/
theorem State.Inv.of_kept {s t : State} (h : s.Inv) (hm : Memory.wf t.mem) (hr : t.recorded .undef = s.recorded .undef)
    (hu : t.ucnt = s.ucnt) : t.Inv :=
  ⟨hm, by rw [hr, hu, h.undefCounted]⟩

theorem fetch_inv {s : State} (h : s.Inv) : (fetch s).Inv :=
  h.of_kept (by rw [fetch_mem]; exact h.memWf) (by simp) (fetch_ucnt s)

theorem executed_inv {s : State} (h : s.Inv) : (executed s).Inv := by
  obtain ⟨i, -, hs⟩ | hs := executed_cases s <;> rw [hs]
  · exact h.of_kept (effect_wf i h.memWf) (effect_undef i s) (effect_keeps i s).ucnt
  · refine ⟨h.memWf, ?_⟩
    show (s.raise .undef).recorded .undef = (saturatingSucc s.ucnt != 0)
    simpa using saturatingSucc_ne_zero s.ucnt

theorem step_inv {s t : State} (h : s.Inv) (hs : step s = .next t) : t.Inv := by
  cases hm : s.mode with
  | load =>
    obtain rfl : s = t := Host.Outcome.next.inj ((step_load hm).symm.trans hs)
    exact h
  | run =>
    obtain rfl := Host.Outcome.next.inj ((step_run_next hm).symm.trans hs)
    have hb : (beginStep s).Inv := h.of_kept h.memWf rfl rfl
    have hu := executed_inv (fetch_inv hb)
    exact hu.of_kept (by rw [endStep, timerPhase_mem]; exact hu.memWf) (recorded_endStep_timerPhase _ _) (timerPhase_ucnt _)

theorem reset_inv : State.reset.Inv := ⟨Memory.wf_nil, by decide⟩

theorem loadWrite_inv (a : Addr) (b : Byte) {s : State} (h : s.Inv) : (loadWrite a b s).Inv := by
  rcases loadWrite_cases a b s with hs | hs <;> rw [hs]
  · exact h
  · exact h.of_kept (Memory.write_wf b a.isLt h.memWf) rfl rfl

theorem event_inv (e : HostEvent) {s : State} (h : s.Inv) : (e.apply s).Inv := by
  cases e with
  | reset => exact reset_inv.of_kept Memory.wf_nil rfl rfl
  | loadWrite a b => exact loadWrite_inv a b h
  | start | tickArrive => exact h.of_kept h.memWf rfl rfl

theorem reachable_inv {s : State} (h : Reachable s) : s.Inv := by
  induction h with
  | reset => exact reset_inv
  | step s t _ hs ih => exact step_inv ih hs
  | stepWith inp s t _ hs ih =>
    have hinputs : State.Inv { s with inputs := inp :: s.inputs } := ih.of_kept ih.memWf rfl rfl
    exact step_inv hinputs hs
  | event e s _ ih => exact event_inv e ih

end Sys2Proof.Machine

namespace Sys2Proof.Claims

open Sys2Proof.Machine

/-- Settles O1: the registers, slots, pixels and cells by what `reset` holds, the font by evaluation. -/
theorem resetLeavesTheTableOfValues : Obligations.ResetLeavesTheTableOfValues := by
  refine ⟨fun x => ?_, rfl, rfl, rfl, fun k => ?_, rfl, rfl, rfl, fun row col => ?_, by decide, fun a ha => ?_,
    rfl, rfl, rfl, rfl, rfl⟩
  · simp [State.reg, State.reset]
  · simp [State.reset]
  · simp [State.pixel, State.reset]
  · exact List.getD_eq_default _ _ ha

/-- Settles O2: nothing is listed and nothing has been counted. -/
theorem resetMeetsTheInvariant : Obligations.ResetMeetsTheInvariant := reset_inv

/-- Settles O3: each phase keeps canonical memory; only an unrecognised word sets `UNDEF` or counts, and it does both. -/
theorem everyStepKeepsTheInvariant : Obligations.EveryStepKeepsTheInvariant := fun _ _ => step_inv

/-- Settles O4, by induction on how the state is reached. -/
theorem everyReachableStateMeetsTheInvariant : Obligations.EveryReachableStateMeetsTheInvariant := fun _ => reachable_inv

/-- Settles O10: the step of a recognised word, with `exec` in place of the state it answers. -/
theorem stepRunsTheDecodedInstruction : Obligations.StepRunsTheDecodedInstruction := by
  intro s i hrun hi
  rw [step_of_ok hrun hi, exec_eq_effect]
  rfl

/-- Settles O14: each phase answers a state and keeps the mode, the inputs and the count, which the end of the step moves on. -/
theorem everyStepCompletes : Obligations.EveryStepCompletes := by
  intro s
  cases hm : s.mode with
  | load => exact ⟨s, step_load hm, fun h => nomatch h⟩
  | run =>
    refine ⟨_, step_run_next hm, fun _ => ⟨?_, ?_, ?_⟩⟩
    · simp [endStep, executed_mode, hm]
    · simp [endStep, executed_clock, fetch_eq, beginStep]
    · simp [endStep, executed_inputs, fetch_eq, beginStep]

end Sys2Proof.Claims
end

section
/-! What a step shows: the fetch, the counted no-op, sticky errors, the timers and the tick, and a program at rest. -/

namespace Sys2Proof.Machine

/-- An address is out of range as a number (R47). -/
theorem outOfRange_iff (a : Word) : outOfRange a = true ↔ 0x0FFF < a.toNat := decide_eq_true_iff

/-- The address after one is its successor modulo 65536. -/
theorem toNat_add_one (a : Word) : (a + 1).toNat = (a.toNat + 1) % 65536 := BitVec.toNat_add a 1

theorem fetchWord_toNat (s : State) : (fetchWord s).toNat =
    (Memory.read s.mem (s.pc.toNat % 4096)).toNat * 256 + (Memory.read s.mem ((s.pc.toNat + 1) % 65536 % 4096)).toNat := by
  rw [fetchWord, joinBytes_toNat, State.readByte, State.readByte, cellOf, cellOf, toNat_add_one]
  rfl

/-! What precedes execution touches no register and no timer, and latches the tick. -/

theorem fetch_beginStep_dt (s : State) : (fetch (beginStep s)).dt = s.dt := by rw [fetch_eq]; rfl
theorem fetch_beginStep_st (s : State) : (fetch (beginStep s)).st = s.st := by rw [fetch_eq]; rfl
theorem fetch_beginStep_tickP (s : State) : (fetch (beginStep s)).tickP = (s.tickP || s.nowInputs.tick) := by
  rw [fetch_eq]; rfl
theorem fetch_beginStep_reg (s : State) (x : Nibble) : (fetch (beginStep s)).reg x = s.reg x := by rw [fetch_eq]; rfl

/-- Only `LD.SDT` changes `DT` before the timer phase (R17). -/
theorem executed_dt {s : State} (h : ∀ x, decodeWord s.ir ≠ .ok (.ldSdt x)) : (executed s).dt = s.dt := by
  obtain ⟨i, hi, hs⟩ | hs := executed_cases s <;> rw [hs]
  · refine (effect_keeps i s).dt fun hw => ?_
    obtain ⟨x, rfl⟩ := writes_dt hw
    exact h x hi
  · rfl

/-- Only `LD.ST` changes `ST` before the timer phase (R17). -/
theorem executed_st {s : State} (h : ∀ x, decodeWord s.ir ≠ .ok (.ldSt x)) : (executed s).st = s.st := by
  obtain ⟨i, hi, hs⟩ | hs := executed_cases s <;> rw [hs]
  · refine (effect_keeps i s).st fun hw => ?_
    obtain ⟨x, rfl⟩ := writes_st hw
    exact h x hi
  · rfl

/-- The bytes at `PC` decode to what the fetched word does. -/
theorem decode_fetched (s : State) (i : Instr) : decode [s.readByte s.pc, s.readByte (s.pc + 1)] = .ok (i, []) ↔
    decodeWord (fetch (beginStep s)).ir = .ok i := by
  rw [fetch_ir]
  exact decode_pair_ok _ _ [] i

/-! ### Sticky errors (R22, R23) -/

theorem step_recorded {s t : State} (h : step s = .next t) {c : ErrCond} (hc : s.recorded c = true) :
    t.recorded c = true := by
  obtain ⟨-, rfl⟩ | ⟨-, u, hu, rfl⟩ := step_cases h
  · exact hc
  · obtain rfl := Host.Outcome.next.inj ((execute_eq_executed _).symm.trans hu)
    have hb : (beginStep s).recorded c = true := hc
    rw [recorded_endStep_timerPhase, executed_recorded]
    simp [hb]

theorem step_ucnt {s t : State} (h : step s = .next t) : s.ucnt.toNat ≤ t.ucnt.toNat := by
  obtain ⟨-, rfl⟩ | ⟨-, u, hu, rfl⟩ := step_cases h
  · exact Nat.le_refl _
  · obtain rfl := Host.Outcome.next.inj ((execute_eq_executed _).symm.trans hu)
    have hle := executed_ucnt (fetch (beginStep s))
    rw [fetch_ucnt] at hle
    rw [endStep, timerPhase_ucnt]
    exact hle

/-- No host event but reset touches `ERR`, the count or a timer. -/
theorem event_keeps {e : HostEvent} (h : e ≠ .reset) (s : State) :
    (e.apply s).err = s.err ∧ (e.apply s).ucnt = s.ucnt ∧ (e.apply s).dt = s.dt ∧ (e.apply s).st = s.st := by
  cases e with
  | reset => exact absurd rfl h
  | loadWrite a b => rw [HostEvent.apply, loadWrite_eq]; exact ⟨rfl, rfl, rfl, rfl⟩
  | start | tickArrive => exact ⟨rfl, rfl, rfl, rfl⟩

end Sys2Proof.Machine

namespace Sys2Proof.Claims

open Sys2Proof.Machine

/-- Settles O12: the fetch as one update, its word as a number, its two address checks. -/
theorem fetchReadsTwoCellsAndAdvances : Obligations.FetchReadsTwoCellsAndAdvances := by
  refine fun s => ⟨by rw [fetch_eq], by rw [fetch_ir, fetchWord_toNat], ?_, fun c => ?_⟩
  · rw [fetch_pc]
    exact BitVec.toNat_add s.pc 2
  · simp only [recorded_fetch, Bool.or_eq_true, Bool.and_eq_true, decide_eq_true_eq, outOfRange_iff, toNat_add_one]

/-- Settles O13: an unrecognised word raises `UNDEF` and moves the count on. -/
theorem unrecognisedWordIsACountedNoOp : Obligations.UnrecognisedWordIsACountedNoOp := by
  refine fun s e hrun he => ⟨_, step_of_error hrun he, unrecognised_eq _, ?_, fun c => ?_⟩
  · rw [unrecognised_eq, saturatingSucc_toNat, fetch_ucnt]
    rfl
  · show ((fetch (beginStep s)).raise .undef).recorded c = true ↔ _
    rw [recorded_raise, Bool.or_eq_true, decide_eq_true_eq, eq_comm (a := c)]

/-- Settles O15: execution clears no bit and never lowers the count; of the host events reset alone touches them. -/
theorem errorsAreStickyAndTheCountNeverFalls : Obligations.ErrorsAreStickyAndTheCountNeverFalls := by
  refine ⟨fun s t h => ⟨fun c => step_recorded h, step_ucnt h⟩, fun e s he => ?_, fun s => ⟨rfl, rfl⟩⟩
  obtain ⟨herr, hucnt, -, -⟩ := event_keeps he s
  exact ⟨herr, hucnt⟩

/-- Settles O17: the timer phase as one update; before it the footprints say who writes a timer. -/
theorem timerPhaseCountsDownOncePerTick : Obligations.TimerPhaseCountsDownOncePerTick := by
  refine ⟨fun s h => ⟨by rw [timerPhase_eq], ?_, ?_⟩, fun s h => if_neg (by simp [h]), fun s t hrun hs => ?_,
    fun s t hload hs => ?_, fun e s he => ?_, fun s => ⟨rfl, rfl⟩⟩
  · simp [timerPhase_eq, h, countDown_toNat]
  · simp [timerPhase_eq, h, countDown_toNat]
  · refine ⟨fetch_beginStep_dt s, fetch_beginStep_st s, _, execute_eq_executed _, ?_, fun hnot => ?_, fun hnot => ?_⟩
    · exact Host.Outcome.next.inj (hs.symm.trans (step_run_next hrun))
    · rw [executed_dt fun x hx => hnot x ((decode_fetched s _).mpr hx), fetch_beginStep_dt]
    · rw [executed_st fun x hx => hnot x ((decode_fetched s _).mpr hx), fetch_beginStep_st]
  · obtain rfl := Host.Outcome.next.inj ((step_load hload).symm.trans hs)
    exact ⟨rfl, rfl⟩
  · obtain ⟨-, -, hdt, hst⟩ := event_keeps he s
    exact ⟨hdt, hst⟩

/-- Settles O54: the timer phase counts down what the instruction left in the timers. -/
theorem timersCountDownAfterTheInstruction : Obligations.TimersCountDownAfterTheInstruction := by
  rintro x s t d hrun rfl hs
  refine ⟨fun hi => ?_, fun hi => ?_, fun hi => ?_⟩ <;>
    obtain rfl := Host.Outcome.next.inj ((step_of_ok hrun hi).symm.trans hs) <;>
    simp [endStep_timerPhase_dt_toNat, endStep_timerPhase_st_toNat, fetch_beginStep_dt, fetch_beginStep_st,
      fetch_beginStep_tickP, fetch_beginStep_reg]

end Sys2Proof.Claims
end

section
/-! R168: the tick of a step's inputs is latched before the fetch and read by nothing else. An instruction looks at the keys and
the number of its inputs alone, so it commutes with a change of the inputs that leaves these two. -/

namespace Sys2Proof.Machine

/-- The state with other inputs scheduled (R8; log entry 4). -/
def State.withInputs (s : State) (l : List StepInputs) : State := { s with inputs := l }

section
variable (s : State) (l : List StepInputs)

theorem skipIf_withInputs (c : Bool) : (s.withInputs l).skipIf c = (s.skipIf c).withInputs l := by
  rw [skipIf_eq, skipIf_eq]
  rfl

theorem storeReg_withInputs (k : Nibble) : storeReg (s.withInputs l) k = (storeReg s k).withInputs l := by
  rw [storeReg_eq, storeReg_eq, checkAddr_eq, checkAddr_eq]
  rfl

/-- The sprite drawn, the registers and `ERR` are the same: each is determined by the specification of the loop. -/
theorem drawSprite_withInputs (x0 : Fin 64) (y0 : Fin 32) {n : Nat} (hn : n ≤ 32) :
    drawSprite x0 y0 n (s.withInputs l) = (drawSprite x0 y0 n s).withInputs l := by
  obtain ⟨hrest, hpix, hreg, hrec⟩ := drawSprite_spec x0 y0 s hn
  obtain ⟨hrest', hpix', hreg', hrec'⟩ := drawSprite_spec x0 y0 (s.withInputs l) hn
  rw [hrest'.rest]
  conv_rhs => rw [hrest.rest]
  rw [fb_ext fun r c => (hpix' r c).trans (hpix r c).symm, v_ext fun y => (hreg' y).trans (hreg y).symm,
    err_ext fun d => Bool.eq_iff_iff.mpr ((hrec' d).trans (hrec d).symm)]
  rfl

/-- Likewise the registers loaded and `ERR`. -/
theorem loadRegs_withInputs (ks : List Nibble) : ks.foldl loadReg (s.withInputs l) = (ks.foldl loadReg s).withInputs l := by
  obtain ⟨hrest, hreg, hrec⟩ := loadRegs_spec ks s
  obtain ⟨hrest', hreg', hrec'⟩ := loadRegs_spec ks (s.withInputs l)
  rw [hrest']
  conv_rhs => rw [hrest]
  rw [v_ext fun y => (hreg' y).trans (hreg y).symm, err_ext fun d => Bool.eq_iff_iff.mpr ((hrec' d).trans (hrec d).symm)]
  rfl

end

/-- An instruction looks at the keys and the number of its inputs alone (R171, R172). -/
theorem effect_withInputs {s : State} {l : List StepInputs} (hkeys : (s.withInputs l).nowInputs.keyIn = s.nowInputs.keyIn)
    (hrnd : (s.withInputs l).nowInputs.rndIn = s.nowInputs.rndIn) (i : Instr) :
    effect i (s.withInputs l) = (effect i s).withInputs l := by
  have hdown : ∀ k, (s.withInputs l).keyDown k = s.keyDown k := fun k => by rw [State.keyDown, hkeys]; rfl
  have hheld : ∀ b, (s.withInputs l).keyHeld b = s.keyHeld b := fun b => hdown _
  cases i with
  | ret => rw [effect_ret, effect_ret, apply_dite (State.withInputs · l)]; rfl
  | call nnn => rw [effect_call, effect_call, apply_dite (State.withInputs · l)]; rfl
  | seB | sneB | seR | sneR => exact skipIf_withInputs ..
  | skp x | sknp x => simp only [effect_skp, effect_sknp, hheld, skipIf_eq, checkKey_eq]; rfl
  | rnd x kk => exact congrArg (fun r => (s.setReg x (randomByte r kk)).withInputs l) hrnd
  | drw x y n => exact congrArg State.pulseFbChanged (drawSprite_withInputs (s.setReg vF 0) l _ _ (by omega))
  | ldK x =>
    have hfirst : (s.withInputs l).firstKey = s.firstKey := congrArg nibbles.find? (funext hdown)
    cases hk : s.firstKey with
    | none => rw [effect_ldK_none x (hfirst.trans hk), effect_ldK_none x hk]; rfl
    | some k => rw [effect_ldK_some x (hfirst.trans hk), effect_ldK_some x hk]; rfl
  | ldBcd x => simp only [effect_ldBcd, memWrite_eq, checkAddr_eq]; rfl
  | ldStm x => exact List.foldl_hom (State.withInputs · l) fun t => storeReg_withInputs t l
  | ldLdm x => exact loadRegs_withInputs ..
  | _ => rfl

theorem executed_withInputs {s : State} {l : List StepInputs}
    (hkeys : (s.withInputs l).nowInputs.keyIn = s.nowInputs.keyIn)
    (hrnd : (s.withInputs l).nowInputs.rndIn = s.nowInputs.rndIn) :
    executed (s.withInputs l) = (executed s).withInputs l := by
  cases h : decodeWord s.ir with
  | ok i => rw [executed_of_ok h, executed_of_ok (s := s.withInputs l) h, effect_withInputs hkeys hrnd]
  | error e => rw [executed_of_error h, executed_of_error (s := s.withInputs l) h]; rfl

/-- The inputs of a step are dropped at its end. -/
theorem endStep_timerPhase_withInputs (s : State) (a b : StepInputs) (l : List StepInputs) :
    endStep (timerPhase (s.withInputs (a :: l))) = endStep (timerPhase (s.withInputs (b :: l))) := by
  rw [timerPhase_eq, timerPhase_eq]
  rfl

theorem withInputs_self {s : State} {l : List StepInputs} (h : s.inputs = l) : s.withInputs l = s := by
  subst h
  rfl

theorem fetch_withInputs (s : State) (l : List StepInputs) : fetch (s.withInputs l) = (fetch s).withInputs l := by
  simp only [fetch_eq, checkAddr_eq]
  rfl

/-- From the fetch on, a step looks at the keys and the number of its inputs alone. -/
theorem endStep_of_inputs_congr (s : State) {a b : StepInputs} (l : List StepInputs) (hkeys : a.keyIn = b.keyIn)
    (hrnd : a.rndIn = b.rndIn) : endStep (timerPhase (executed (fetch (s.withInputs (a :: l))))) =
      endStep (timerPhase (executed (fetch (s.withInputs (b :: l))))) := by
  rw [fetch_withInputs, fetch_withInputs]
  generalize fetch s = t
  have hself : (executed (t.withInputs (b :: l))).withInputs (b :: l) = executed (t.withInputs (b :: l)) :=
    withInputs_self (executed_inputs _)
  have hchange : executed (t.withInputs (a :: l)) = (executed (t.withInputs (b :: l))).withInputs (a :: l) :=
    executed_withInputs (s := t.withInputs (b :: l)) hkeys hrnd
  rw [hchange, endStep_timerPhase_withInputs _ a b, hself]

/-- A tick in the inputs is a tick latched before the step. -/
theorem stepWith_tick (s : State) (inp : StepInputs) (hrun : s.mode = .run) :
    stepWith { inp with tick := true } s = stepWith { inp with tick := false } (tickArrive s) := by
  have hbegin : beginStep (s.withInputs ({ inp with tick := true } :: s.inputs)) =
      State.withInputs { s with tickP := true, fbChanged := false } ({ inp with tick := true } :: s.inputs) := by
    simp [beginStep, State.withInputs, State.nowInputs]
  refine (step_run_next (s := s.withInputs ({ inp with tick := true } :: s.inputs)) hrun).trans ?_
  rw [hbegin, endStep_of_inputs_congr _ (a := { inp with tick := true }) (b := { inp with tick := false }) s.inputs rfl rfl]
  exact (step_run_next (s := (tickArrive s).withInputs ({ inp with tick := false } :: s.inputs)) hrun).symm

end Sys2Proof.Machine

namespace Sys2Proof.Claims

open Sys2Proof.Machine

/-- Settles O18: the latch is set, not added to; the timer phase of every step clears it; beside the latch no step sees a tick. -/
theorem tickIsLatchedNotCounted : Obligations.TickIsLatchedNotCounted := by
  refine ⟨fun s => ⟨rfl, rfl⟩, fun s t hrun hs => ?_, fun s inp => stepWith_tick s inp⟩
  obtain rfl := Host.Outcome.next.inj ((step_run_next hrun).symm.trans hs)
  rw [timerPhase_eq]
  rfl

end Sys2Proof.Claims
end

section
/-! R196: a program at rest. The word at `A` is the encoding of `JP A`, its fetch records nothing, and the jump goes back
to `A`. -/

namespace Sys2Proof.Machine

/-- A fetch from addresses in range records nothing. -/
theorem fetch_of_inRange {s : State} (h : s.pc.toNat ≤ 0xFFE) : fetch s = { s with ir := fetchWord s, pc := s.pc + 2 } := by
  have hsucc := toNat_add_one s.pc
  have hlow : ¬ outOfRange s.pc = true := by rw [outOfRange_iff]; omega
  have hhigh : ¬ outOfRange (s.pc + 1) = true := by rw [outOfRange_iff]; omega
  rw [fetch_eq, State.checkAddr, if_neg hhigh, State.checkAddr, if_neg hlow]

/-- The low 12 bits of an address of the 4096 cells are the address. -/
theorem zextAddr_setWidth {a : Word} (h : a.toNat ≤ 0xFFE) : zextAddr (a.setWidth 12) = a := by
  apply BitVec.eq_of_toNat_eq
  rw [zextAddr, BitVec.toNat_setWidth, BitVec.toNat_setWidth]
  omega

/-- The word at rest is `JP A`. -/
theorem fetchWord_atRest {s : State} {a : Word} (h : s.atRest a) : fetchWord s = encode (.jp (a.setWidth 12)) := by
  obtain ⟨-, hpc, hle, hhigh, hlow⟩ := h
  apply BitVec.eq_of_toNat_eq
  rw [fetchWord_toNat, hpc, Nat.mod_eq_of_lt (a := a.toNat) (by omega), Nat.mod_eq_of_lt (a := a.toNat + 1) (by omega),
    Nat.mod_eq_of_lt (a := a.toNat + 1) (by omega), hhigh, hlow, encode, formA_toNat, BitVec.toNat_setWidth,
    BitVec.toNat_ofNat, BitVec.toNat_ofNat]
  show (0x10 + a.toNat / 256) % 2 ^ 8 * 256 + a.toNat % 256 % 2 ^ 8 = 1 * 4096 + a.toNat % 2 ^ 12
  omega

/-- What a step at rest answers. -/
theorem step_atRest {s : State} {a : Word} (h : s.atRest a) : ∃ dt st, step s = .next { s with
    ir := fetchWord s, dt := dt, st := st, tickP := false, fbChanged := false, inputs := s.inputs.tail,
    clock := s.clock + 1 } := by
  have hdec : decodeWord (fetch (beginStep s)).ir = .ok (.jp (a.setWidth 12)) := by
    rw [fetch_ir, fetchWord_beginStep, fetchWord_atRest h, decodeWord_encode]
  have hpc : (beginStep s).pc.toNat ≤ 0xFFE := by rw [beginStep_eq, h.here]; exact h.inRange
  rw [step_run_next h.running, executed_of_ok hdec, effect_jp, zextAddr_setWidth h.inRange, fetch_of_inRange hpc,
    timerPhase_eq, ← h.here]
  exact ⟨_, _, rfl⟩

end Sys2Proof.Machine

namespace Sys2Proof.Claims

open Sys2Proof.Machine

/-- Settles O30: the step at rest as one update, which leaves `PC`, memory and the mode. -/
theorem restIsKeptByEveryStep : Obligations.RestIsKeptByEveryStep := by
  intro s a h
  obtain ⟨dt, st, hs⟩ := step_atRest h
  refine ⟨_, hs, ⟨h.running, h.here, h.inRange, h.high, h.low⟩, ?_, rfl⟩
  have hle := h.inRange
  show (fetchWord s).toNat = _
  rw [fetchWord_atRest h, encode, formA_toNat, BitVec.toNat_setWidth]
  show 1 * 4096 + a.toNat % 2 ^ 12 = 0x1000 + a.toNat
  omega

end Sys2Proof.Claims
end

section
/-! Memory (R47, R50, R52) and the bulk transfers (R150 to R152): which cells a store writes and with what, and what a fetch or a
load reads there afterwards. -/

namespace Sys2Proof.Machine

open Sys2Proof.Claims

@[simp] theorem elemAddress_zero (s : State) : s.elemAddress 0 = s.i := BitVec.add_zero s.i

/-! ### The cells of a store -/

/-- `t`'s memory is that of `s` with `n` bytes stored from `I` on. -/
structure StoredAt (s t : State) (n : Nat) (stored : Nat → Byte) : Prop where
  inside : ∀ k, k < n → Memory.read t.mem (cellOf (s.elemAddress k)) = stored k
  outside : ∀ c, (∀ k, k < n → c ≠ cellOf (s.elemAddress k)) → Memory.read t.mem c = Memory.read s.mem c

/-- `LD.STM` stores the registers (R151). -/
theorem storedAt_ldStm (x : Nibble) (s : State) :
    StoredAt s (effect (.ldStm x) s) (x.val + 1) fun k => s.reg (Fin.ofNat 16 k) := by
  obtain ⟨-, hin, hout, -⟩ := storeRegs_spec (nibblesUpTo x) (nodup_nibblesUpTo x) s
  refine ⟨fun k hk => ?_, fun c hc => hout c fun k hk => ?_⟩
  · have hval : (Fin.ofNat 16 k : Nibble).val = k := Nat.mod_eq_of_lt (by omega)
    have hle : Fin.ofNat 16 k ≤ x := by rw [Fin.le_def, hval]; omega
    rw [← hin _ ((mem_nibblesUpTo x _).mpr hle), hval]
    rfl
  · exact hc k.val (Nat.lt_succ_of_le ((mem_nibblesUpTo x k).mp hk))

/-- `LD.BCD` stores the decimal digits (R150). -/
theorem storedAt_ldBcd (x : Nibble) (s : State) :
    StoredAt s (effect (.ldBcd x) s) 3 fun k => BitVec.ofNat 8 ((s.reg x).toNat / 10 ^ (2 - k) % 10) := by
  have hinj : ∀ j k, j < 3 → k < 3 → (cellOf (s.elemAddress j) = cellOf (s.elemAddress k) ↔ j = k) := fun j k hj hk =>
    ⟨cellOf_add_inj s.i (by omega) (by omega), fun h => by rw [h]⟩
  have hread : ∀ c, Memory.read (effect (.ldBcd x) s).mem c = if c = cellOf (s.elemAddress 2) then bcdUnits (s.reg x) else
      if c = cellOf (s.elemAddress 1) then bcdTens (s.reg x) else
      if c = cellOf (s.elemAddress 0) then bcdHundreds (s.reg x) else Memory.read s.mem c := fun c => by
    simp only [effect_ldBcd, memWrite_mem, Memory.read_write]
  refine ⟨fun k hk => ?_, fun c hc => ?_⟩
  · have hlt := (s.reg x).isLt
    have hdigits : k = 0 ∨ k = 1 ∨ k = 2 := by omega
    rw [hread]
    rcases hdigits with rfl | rfl | rfl
    · have hhundreds : (s.reg x).toNat / 100 % 10 = (s.reg x).toNat / 100 := by omega
      simp [-elemAddress_zero, hinj, bcdHundreds, hhundreds]
    · simp [-elemAddress_zero, hinj, bcdTens]
    · simp [-elemAddress_zero, bcdUnits]
  · rw [hread, if_neg (hc 2 (by omega)), if_neg (hc 1 (by omega)), if_neg (hc 0 (by omega))]

/-- A read after a store: the stored byte where the cell is one of the store's, the old one elsewhere (R50). -/
theorem StoredAt.readsAsStored {s t : State} {n : Nat} {stored : Nat → Byte} (h : StoredAt s t n stored) (a : Word) :
    ReadsAsStored s n stored a (Memory.read t.mem (cellOf a)) :=
  ⟨fun k hk ha => by rw [ha]; exact h.inside k hk, fun ha => h.outside _ ha⟩

/-- A fetch after a store (R52). -/
theorem StoredAt.fetch_readsAsStored {s t : State} {n : Nat} {stored : Nat → Byte} (h : StoredAt s t n stored) (p : Word) :
    ReadsAsStored s n stored p ((fetch { t with pc := p }).ir.extractLsb' 8 8) ∧
    ReadsAsStored s n stored (p + 1) ((fetch { t with pc := p }).ir.extractLsb' 0 8) := by
  constructor
  · have hhigh := h.readsAsStored p
    rwa [← show (fetch { t with pc := p }).ir.extractLsb' 8 8 = Memory.read t.mem (cellOf p) from
      highByte_fetch_ir { t with pc := p }] at hhigh
  · have hlow := h.readsAsStored (p + 1)
    rwa [← show (fetch { t with pc := p }).ir.extractLsb' 0 8 = Memory.read t.mem (cellOf (p + 1)) from
      lowByte_fetch_ir { t with pc := p }] at hlow

/-! ### The registers of a load -/

/-- What `LD.LDM` leaves in each register (R152). -/
theorem reg_ldLdm (x k : Nibble) (s : State) :
    (effect (.ldLdm x) s).reg k = if k ≤ x then s.readByte (s.elemAddress k.val) else s.reg k := by
  rw [effect_ldLdm, (loadRegs_spec (nibblesUpTo x) s).2.1 k]
  simp only [mem_nibblesUpTo]

end Sys2Proof.Machine

namespace Sys2Proof.Claims

open Sys2Proof.Machine

/-- Settles O25: read after write, and the check of the address. -/
theorem memoryReadReturnsTheLatestWrite : Obligations.MemoryReadReturnsTheLatestWrite := by
  refine fun s a b => ⟨rfl, ?_, fun c => ?_, memWrite_eq s a b, fun k => ?_⟩
  · show s.checkAddr a = { s with err := (s.checkAddr a).err }
    rw [checkAddr_eq]
  · show (s.checkAddr a).recorded c = true ↔ _
    rw [recorded_checkAddr, Bool.or_eq_true, Bool.and_eq_true, decide_eq_true_eq, outOfRange_iff]
  · exact Memory.read_write s.mem (cellOf a) b k

/-- Settles O26: the fetch reads the memory the store left. -/
theorem storesAreSeenByTheNextFetch : Obligations.StoresAreSeenByTheNextFetch :=
  fun s x => ⟨⟨_, exec_eq_effect (.ldStm x) s, (storedAt_ldStm x s).fetch_readsAsStored⟩,
    ⟨_, exec_eq_effect (.ldBcd x) s, (storedAt_ldBcd x s).fetch_readsAsStored⟩⟩

/-- Settles O55: the three digits, and the footprint of `LD.BCD`. -/
theorem bcdStoresThreeDigits : Obligations.BcdStoresThreeDigits := by
  intro x s
  obtain ⟨hin, hout⟩ := storedAt_ldBcd x s
  have hlt := (s.reg x).isLt
  refine ⟨_, exec_eq_effect (.ldBcd x) s, effect_keeps (.ldBcd x) s, ?_, ?_, ?_, fun a h0 h1 h2 => hout a fun k hk => ?_,
    recorded_ldBcd x s⟩
  · have h := hin 0 (by omega)
    rw [elemAddress_zero] at h
    rw [State.readByte, h, BitVec.toNat_ofNat]
    omega
  · exact (congrArg BitVec.toNat (hin 1 (by omega))).trans (by rw [BitVec.toNat_ofNat]; omega)
  · exact (congrArg BitVec.toNat (hin 2 (by omega))).trans (by rw [BitVec.toNat_ofNat]; omega)
  · have hcases : k = 0 ∨ k = 1 ∨ k = 2 := by omega
    rcases hcases with rfl | rfl | rfl
    · rwa [elemAddress_zero]
    · exact h1
    · exact h2

/-- Settles O56: the loop of `LD.STM` over the registers up to `x`. -/
theorem bulkStoreWritesTheRegisters : Obligations.BulkStoreWritesTheRegisters := by
  intro x s
  obtain ⟨hrest, hin, hout, -⟩ := storeRegs_spec (nibblesUpTo x) (nodup_nibblesUpTo x) s
  exact ⟨_, exec_eq_effect (.ldStm x) s, hrest, fun k hk => hin k ((mem_nibblesUpTo x k).mpr hk),
    fun a ha => hout a fun k hk => ha k ((mem_nibblesUpTo x k).mp hk), recorded_ldStm x s⟩

/-- Settles O57: the loop of `LD.LDM` over the registers up to `x`. -/
theorem bulkLoadReadsTheRegisters : Obligations.BulkLoadReadsTheRegisters :=
  fun x s => ⟨_, exec_eq_effect (.ldLdm x) s, effect_keeps (.ldLdm x) s,
    fun k hk => (reg_ldLdm x k s).trans (if_pos hk), fun k hk => (reg_ldLdm x k s).trans (if_neg (Fin.not_le.mpr hk)),
    recorded_ldLdm x s⟩

/-- Settles O58: the load reads the cells the store wrote, for `I` is the same. -/
theorem bulkStoreThenLoadRoundTrips : Obligations.BulkStoreThenLoadRoundTrips := by
  intro x s w
  obtain ⟨t, ht, hrest, hin, -⟩ := bulkStoreWritesTheRegisters x s
  have hi : t.i = s.i := by rw [hrest]
  refine ⟨t, _, ht, exec_eq_effect (.ldLdm x) { t with v := w }, fun k hk => ?_, fun k hk => ?_⟩
  · rw [reg_ldLdm, if_pos hk, ← hin k hk, State.elemAddress, State.elemAddress, ← hi]
    rfl
  · rw [reg_ldLdm, if_neg (Fin.not_le.mpr hk)]
    rfl

end Sys2Proof.Claims
end

section
/-! Loading and launching a program (R31, R54, R192 to R194): the load port writes one cell per byte, from `0x200` on. -/

namespace Sys2Proof.Machine

/-- One byte of the loader: the cell at the load address. -/
theorem loadWrite_ofNat {s : State} {a : Nat} (h : s.mode = .load) (hlow : 0x200 ≤ a) (hhigh : a < 0x1000) (b : Byte) :
    loadWrite (BitVec.ofNat 12 a) b s = { s with mem := Memory.write s.mem a b } := by
  have ha : (BitVec.ofNat 12 a).toNat = a := by rw [BitVec.toNat_ofNat]; exact Nat.mod_eq_of_lt (by omega)
  rw [loadWrite_of_load h (by omega), ha]

/-- Bytes loaded from `a` on: memory alone changes, each byte stands in its cell, every other cell stays. -/
theorem loadBytes_spec (p : List Byte) (a : Nat) (s : State) (hm : s.mode = .load) (hlow : 0x200 ≤ a)
    (hhigh : a + p.length ≤ 0x1000) :
    let t := loadBytes a p s
    t = { s with mem := t.mem } ∧
    (∀ (k : Nat) (h : k < p.length), Memory.read t.mem (a + k) = p[k]) ∧
    (∀ c, c < a ∨ a + p.length ≤ c → Memory.read t.mem c = Memory.read s.mem c) := by
  induction p generalizing a s with
  | nil => exact ⟨rfl, fun k h => absurd h (Nat.not_lt_zero k), fun c _ => rfl⟩
  | cons b p ih =>
    rw [List.length_cons] at hhigh
    have hfirst := loadWrite_ofNat hm hlow (by omega) b
    obtain ⟨hrest, hin, hout⟩ := ih (a + 1) (loadWrite (BitVec.ofNat 12 a) b s) (by rw [hfirst]; exact hm) (by omega) (by omega)
    rw [loadBytes]
    generalize loadBytes (a + 1) p (loadWrite (BitVec.ofNat 12 a) b s) = t at hrest hin hout
    rw [hfirst] at hrest hout
    simp only [Memory.read_write] at hout
    refine ⟨hrest, fun k hk => ?_, fun c hc => ?_⟩
    · cases k with
      | zero => exact (hout a (by omega)).trans (if_pos rfl)
      | succ k =>
        rw [show a + (k + 1) = a + 1 + k by omega]
        exact hin k (Nat.lt_of_succ_lt_succ hk)
    · rw [List.length_cons] at hc
      rw [hout c (by omega), if_neg (by omega)]

/-- The loader accepts a program that fits (R193). -/
theorem loadProgram_of_fits {p : List Byte} (h : p.length ≤ 0xE00) (s : State) :
    loadProgram p s = .ok (loadBytes Config.progBase p s) :=
  if_pos (decide_eq_true h)

/-- The loader rejects a longer one whole (R193). -/
theorem loadProgram_of_tooLarge {p : List Byte} (h : 0xE00 < p.length) (s : State) : loadProgram p s = .error .tooLarge :=
  if_neg fun hfits => Nat.not_le.mpr h (of_decide_eq_true hfits)

/-- A program that fits is loaded at `0x200`. -/
theorem loadBytes_progBase_spec {p : List Byte} (h : p.length ≤ 0xE00) (s : State) (hm : s.mode = .load) :
    let t := loadBytes Config.progBase p s
    t = { s with mem := t.mem } ∧
    (∀ (k : Nat) (h : k < p.length), Memory.read t.mem (0x200 + k) = p[k]) ∧
    (∀ c, c < 0x200 ∨ 0x200 + p.length ≤ c → Memory.read t.mem c = Memory.read s.mem c) :=
  loadBytes_spec p Config.progBase s hm (Nat.le_refl _) (by rw [Config.progBase]; omega)

theorem launch_of_fits {p : List Byte} (h : p.length ≤ 0xE00) (s : State) :
    launch p s = .ok (start (loadBytes Config.progBase p (hostReset s))) := by
  rw [launch, loadProgram_of_fits h]

end Sys2Proof.Machine

namespace Sys2Proof.Claims

open Sys2Proof.Machine

/-- Settles O27, by induction on the program. -/
theorem loaderPlacesOrRejectsTheProgram : Obligations.LoaderPlacesOrRejectsTheProgram :=
  fun _ s => ⟨fun h hm => ⟨_, loadProgram_of_fits h s, loadBytes_progBase_spec h s hm⟩, fun h => loadProgram_of_tooLarge h s⟩

/-- Settles O28: the step and the load port by mode and address. -/
theorem loadPortAndStepRequestsAreGuardedByMode : Obligations.LoadPortAndStepRequestsAreGuardedByMode := by
  refine fun s a b => ⟨step_load, fun h => loadWrite_of_run h a b, fun h => loadWrite_of_low h b s,
    fun hm ha => ⟨loadWrite_eq a b s, fun k => ?_⟩, rfl⟩
  rw [loadWrite_of_load hm ha]
  exact Memory.read_write s.mem a.toNat b k

/-- Settles O29: the loader started from the reset state, then `start`. -/
theorem launchStateIsResetPlusTheProgram : Obligations.LaunchStateIsResetPlusTheProgram := by
  intro p s h
  obtain ⟨hrest, hin, hout⟩ := loadBytes_progBase_spec h (hostReset s) rfl
  exact ⟨_, launch_of_fits h s, congrArg start hrest, hin, hout⟩

end Sys2Proof.Claims
end

section
/-! The instructions one by one: control flow and skips (files 40, 41), and the load and arithmetic instructions that write no
flag (file 42). -/

namespace Sys2Proof.Claims

open Sys2Proof.Machine

/-! ### Display and control flow -/

/-- Settles O32: `clearScreen` fills the framebuffer with dark rows. -/
theorem clearScreenZeroesEveryPixel : Obligations.ClearScreenZeroesEveryPixel :=
  fun s => ⟨_, exec_eq_effect .cls s, effect_keeps .cls s, fun row col => by simp [State.pixel]⟩

/-- Settles O33: the row of `JP` in the opcode map, and its meaning. -/
theorem jumpSetsPc : Obligations.JumpSetsPc := ⟨decodes_jp, fun _ _ => rfl⟩

/-- Settles O34: on a stack that is not full the slot at `SP` alone is written; on a full one `ERR` alone. -/
theorem callPushesAndJumps : Obligations.CallPushesAndJumps := by
  refine fun nnn s => ⟨_, exec_eq_effect (.call nnn) s, fun h => ?_, fun h => ⟨?_, fun c => ?_⟩⟩
  · rw [effect_call, dif_pos h]
    refine ⟨rfl, rfl, fun k => ?_⟩
    simp [State.push, Vector.getElem_set, eq_comm]
  · rw [effect_call, dif_neg (by omega)]
    rfl
  · rw [recorded_call]
    simp [h]

/-- Settles O35: on a stack that is not empty `SP` and `PC` alone are written; on an empty one `ERR` alone. -/
theorem returnPopsIntoPc : Obligations.ReturnPopsIntoPc := by
  refine fun s => ⟨_, exec_eq_effect .ret s, fun h => ?_, fun h => ⟨?_, fun c => ?_⟩⟩
  · rw [effect_ret, dif_pos h]
    refine ⟨rfl, Nat.sub_add_cancel h, fun k hk => ?_⟩
    have hslot : k.val = s.sp.val - 1 := hk
    simp [State.popPc, hslot]
  · rw [effect_ret, dif_neg (by omega)]
    rfl
  · rw [recorded_ret]
    simp [h]

/-- Settles O36: the slot `RET` pops is the one `CALL` pushed. -/
theorem returnComesBackFromTheCall : Obligations.ReturnComesBackFromTheCall := by
  intro nnn s h
  refine ⟨_, _, exec_eq_effect (.call nnn) s, exec_eq_effect .ret _, ?_⟩
  have hpos : 0 < ((s.push s.pc h).setPc (zextAddr nnn)).sp.val := Nat.succ_pos _
  rw [effect_call, dif_pos h, effect_ret, dif_pos hpos]
  simp [State.popPc, State.push, State.setPc]

/-- Settles O37: the rows of the skips in the opcode map, the tails rejected, and a skip as a choice of `PC`. -/
theorem skipsAdvancePcWhenTheConditionHolds : Obligations.SkipsAdvancePcWhenTheConditionHolds := by
  refine ⟨decodes_seB, decodes_sneB, decodes_seR, decodes_sneR, fun w hop htail => ?_, fun x y kk s => ?_⟩
  · rcases hop with hop | hop
    · exact ⟨_, (rejectedPatternsAreTheSixOfTheTable w .skipEqualTail).mpr ⟨hop, htail⟩⟩
    · exact ⟨_, (rejectedPatternsAreTheSixOfTheTable w .skipNotEqualTail).mpr ⟨hop, htail⟩⟩
  · simp [exec_eq_effect, skipIf_eq]

/-! ### Load and arithmetic -/

/-- Settles O38: the rows in the opcode map, and a register write. -/
theorem loadImmediateAndCopy : Obligations.LoadImmediateAndCopy := by
  refine ⟨decodes_ldB, decodes_ldR, fun x y kk s => ⟨⟨_, rfl, rfl, fun r => ?_⟩, ⟨_, rfl, rfl, fun r => ?_⟩, ?_⟩⟩
  · rw [reg_setReg]
    simp [eq_comm]
  · rw [reg_setReg]
    simp [eq_comm]
  · rw [exec_eq_effect, effect_ldR]
    have hsame : (s.setReg x (s.reg x)).v = s.v := v_ext fun r => by simp +contextual
    exact congrArg (fun v => Host.Outcome.next { s with v := v }) hsame

/-- Settles O39: a register write of the result. -/
theorem addImmediateAndBitwiseWriteNoFlag : Obligations.AddImmediateAndBitwiseWriteNoFlag := by
  refine fun x y kk s => ⟨⟨_, rfl, rfl, ?_, ?_⟩, ⟨_, rfl, rfl, ?_, ?_⟩, ⟨_, rfl, rfl, ?_, ?_⟩, ⟨_, rfl, rfl, ?_, ?_⟩⟩
  case refine_1 => simp [BitVec.toNat_add]
  case refine_3 | refine_5 | refine_7 => simp
  all_goals exact fun r hr => reg_setReg_of_ne hr s _

end Sys2Proof.Claims
end

section
/-! The flag writers (R100, R107 to R111, R123) and `RND` (R124): what the two-step order leaves in each operand shape, and the
flags and results as numbers. -/

namespace Sys2Proof.Machine

/-! ### The operand shapes of a flag writer (R100) -/

/-- What a flag writer leaves, as numbers, in the four shapes: the flag is written first, so where an operand or the destination
is `VF` the operation sees the flag `n`. -/
theorem flagThen_shapes (op : Byte → Byte → Byte) (f : Nat → Nat → Nat) (hop : ∀ a b, (op a b).toNat = f a.toNat b.toNat)
    {c : Bool} {n : Nat} (hn : (flagByte c).toNat = n) (x y : Nibble) (s : State) :
    (x ≠ 0xF → ((flagThen c x y op s).reg 0xF).toNat = n) ∧
    (x ≠ 0xF → y ≠ 0xF → ((flagThen c x y op s).reg x).toNat = f (s.reg x).toNat (s.reg y).toNat) ∧
    (x ≠ 0xF → y = 0xF → ((flagThen c x y op s).reg x).toNat = f (s.reg x).toNat n) ∧
    (x = 0xF → y ≠ 0xF → ((flagThen c x y op s).reg 0xF).toNat = f n (s.reg y).toNat) ∧
    (x = 0xF → y = 0xF → ((flagThen c x y op s).reg 0xF).toNat = f n n) := by
  simp only [reg_flagThen, show vF = 0xF from rfl, ← hn, ← hop]
  refine ⟨fun hx => ?_, fun hx hy => ?_, fun hx hy => ?_, fun hx hy => ?_, fun hx hy => ?_⟩
  · rw [if_neg hx, if_pos trivial]
  · rw [if_pos trivial, if_neg hx.symm, if_neg hy.symm]
  · rw [if_pos trivial, if_neg hx.symm, if_pos hy.symm]
  · rw [if_pos hx, if_pos hx.symm, if_neg hy.symm]
  · rw [if_pos hx, if_pos hx.symm, if_pos hy.symm]

/-! ### The flags as numbers -/

theorem flagByte_carryOut (a b : Byte) : (flagByte (carryOut a b)).toNat = if 255 < a.toNat + b.toNat then 1 else 0 := by
  simp [flagByte_toNat, carryOut]

theorem flagByte_noBorrow (a b : Byte) : (flagByte (noBorrow a b)).toNat = if b.toNat ≤ a.toNat then 1 else 0 := by
  simp [flagByte_toNat, noBorrow]

theorem flagByte_indexCarry (limit : CarryLimit) (i : Word) (b : Byte) :
    (flagByte (indexCarry limit i b)).toNat = if limit.value < i.toNat + b.toNat then 1 else 0 := by
  simp [flagByte_toNat, indexCarry]

/-- The bit `SHR` shifts out is the parity. -/
theorem flagByte_lowBit (a : Byte) : (flagByte (lowBit a)).toNat = a.toNat % 2 := by
  have hbit : lowBit a = decide (a.toNat % 2 = 1) := Nat.testBit_zero a.toNat
  rw [flagByte_toNat, hbit]
  simp only [decide_eq_true_eq]
  split <;> omega

/-- The bit `SHL` shifts out is the half the byte lies in. -/
theorem flagByte_highBit (a : Byte) : (flagByte (highBit a)).toNat = a.toNat / 128 := by
  have hbit : highBit a = decide (a.toNat / 2 ^ 7 % 2 = 1) := Nat.testBit_eq_decide_div_mod_eq
  have hlt := a.isLt
  rw [flagByte_toNat, hbit]
  simp only [decide_eq_true_eq]
  split <;> omega

/-- A flag is at most 1. -/
theorem flagByte_le (c : Bool) : (flagByte c).toNat ≤ 1 := by cases c <;> decide

/-! ### Results as numbers -/

/-- The wrapped difference. -/
theorem byte_sub_toNat (a b : Byte) : (a - b).toNat = (a.toNat + 256 - b.toNat) % 256 := by
  have hlt := b.isLt
  rw [BitVec.toNat_sub]
  omega

theorem byte_shiftRight_one_toNat (a : Byte) : (a >>> 1).toNat = a.toNat / 2 := by
  rw [BitVec.toNat_ushiftRight, Nat.shiftRight_eq_div_pow, Nat.pow_one]

theorem byte_shiftLeft_one_toNat (a : Byte) : (a <<< 1).toNat = a.toNat * 2 % 256 := by
  rw [BitVec.toNat_shiftLeft, Nat.shiftLeft_eq, Nat.pow_one]

/-- What `ADD.I` leaves in `I`: the flag has been written before the register is read (R123). -/
theorem addIndex_i_toNat (limit : CarryLimit) (x : Nibble) (s : State) : (addIndex limit x s).i.toNat =
    (s.i.toNat + (if vF = x then flagByte (indexCarry limit s.i (s.reg x)) else s.reg x).toNat) % 65536 := by
  rw [addIndex, setI_i, BitVec.toNat_add, BitVec.toNat_setWidth, State.setFlag, reg_setReg, setReg_i]
  generalize (if vF = x then flagByte (indexCarry limit s.i (s.reg x)) else s.reg x) = b
  have hlt := b.isLt
  omega

/-- The number of R124 is a byte that is not 0. -/
theorem randomByte_toNat (r : Nat) (kk : Byte) : (randomByte r kk).toNat = (r % 255 + 1) &&& kk.toNat := by
  rw [randomByte, BitVec.toNat_and, BitVec.toNat_ofNat, Nat.mod_eq_of_lt (by omega)]

theorem randomByte_ne_zero (r : Nat) : randomByte r 0xFF ≠ 0 := by
  intro h
  have hnum := randomByte_toNat r 0xFF
  rw [h, show (0xFF : Byte).toNat = 2 ^ 8 - 1 from rfl, Nat.and_two_pow_sub_one_eq_mod] at hnum
  change 0 = (r % 255 + 1) % 2 ^ 8 at hnum
  omega

end Sys2Proof.Machine

namespace Sys2Proof.Claims

open Sys2Proof.Machine

/-- Settles O40: the four operand shapes of a flag writer, with the carry and the wrapped sum. -/
theorem addWithCarryOut : Obligations.AddWithCarryOut := by
  refine ⟨decodes_addR, fun x y s => ⟨_, rfl, rfl, fun r hx hf => reg_flagThen_of_ne hx hf .., fun c hc => ?_⟩⟩
  have hflag := (flagByte_carryOut (s.reg x) (s.reg y)).trans hc.symm
  have hle := flagByte_le (carryOut (s.reg x) (s.reg y))
  obtain ⟨h1, h2, h3, h4, h5⟩ := flagThen_shapes (fun a b => a + b) (fun a b => (a + b) % 256) BitVec.toNat_add hflag x y s
  exact ⟨h1, h2, h3, h4, fun hx hy => (h5 hx hy).trans (by omega)⟩

/-- Settles O41: the four operand shapes of a flag writer, with no borrow and the wrapped difference. -/
theorem subtractWithNoBorrowFlag : Obligations.SubtractWithNoBorrowFlag := by
  refine ⟨decodes_sub, fun x y s => ⟨_, rfl, rfl, fun r hx hf => reg_flagThen_of_ne hx hf .., fun nb hnb => ?_⟩⟩
  have hflag := (flagByte_noBorrow (s.reg x) (s.reg y)).trans hnb.symm
  obtain ⟨h1, h2, h3, h4, h5⟩ := flagThen_shapes (fun a b => a - b) (fun a b => (a + 256 - b) % 256) byte_sub_toNat hflag x y s
  exact ⟨h1, h2, h3, h4, fun hx hy => (h5 hx hy).trans (by omega)⟩

/-- Settles O42: the same with the operands of the difference exchanged. -/
theorem subtractReversedWithNoBorrowFlag : Obligations.SubtractReversedWithNoBorrowFlag := by
  refine fun x y s => ⟨_, rfl, rfl, fun r hx hf => reg_flagThen_of_ne hx hf .., fun nb hnb => ?_⟩
  have hflag := (flagByte_noBorrow (s.reg y) (s.reg x)).trans hnb.symm
  obtain ⟨h1, h2, h3, h4, h5⟩ := flagThen_shapes (fun a b => b - a) (fun a b => (b + 256 - a) % 256)
    (fun a b => byte_sub_toNat b a) hflag x y s
  exact ⟨h1, h2, h3, h4, fun hx hy => (h5 hx hy).trans (by omega)⟩

/-- Settles O43: flag writers whose operation reads its first operand alone; as `y` is not read, both are the shapes with
`y = x`. -/
theorem shiftsMoveOneBitIntoVF : Obligations.ShiftsMoveOneBitIntoVF := by
  intro x y s
  have hlt := (s.reg x).isLt
  constructor
  · obtain ⟨h1, h2, -, -, h5⟩ := flagThen_shapes (fun a _ => a >>> 1) (fun a _ => a / 2)
      (fun a _ => byte_shiftRight_one_toNat a) (flagByte_lowBit (s.reg x)) x x s
    refine ⟨_, rfl, rfl, fun r hx hf => reg_flagThen_of_ne hx hf .., fun hx => ⟨h2 hx hx, h1 hx⟩, fun hx => ?_, rfl⟩
    exact (h5 hx hx).trans (by omega)
  · obtain ⟨h1, h2, -, -, h5⟩ := flagThen_shapes (fun a _ => a <<< 1) (fun a _ => a * 2 % 256)
      (fun a _ => byte_shiftLeft_one_toNat a) (flagByte_highBit (s.reg x)) x x s
    refine ⟨_, rfl, rfl, fun r hx hf => reg_flagThen_of_ne hx hf .., fun hx => ⟨h2 hx hx, h1 hx⟩, fun hx => ?_, rfl⟩
    subst hx
    exact (h5 rfl rfl).trans (by omega)

/-- Settles O44: the row of `LD.I` in the opcode map, and its address as a number. -/
theorem loadIndexImmediate : Obligations.LoadIndexImmediate := by
  refine ⟨decodes_ldI, fun nnn s => ⟨_, rfl, rfl, ?_⟩⟩
  have hlt := nnn.isLt
  rw [setI_i, zextAddr, BitVec.toNat_setWidth]
  omega

/-- Settles O45: the sum does not reach 65536. -/
theorem jumpOffsetAddsV0 : Obligations.JumpOffsetAddsV0 := by
  refine fun nnn s => ⟨_, rfl, rfl, ?_⟩
  have hlt := nnn.isLt
  have hreg := (s.reg 0).isLt
  rw [setPc_pc, offsetTarget, zextAddr, BitVec.toNat_add, BitVec.toNat_setWidth, BitVec.toNat_setWidth]
  omega

/-- Settles O46: the product does not reach 65536. -/
theorem glyphAddressIsFiveTimesTheDigit : Obligations.GlyphAddressIsFiveTimesTheDigit := by
  refine fun x s => ⟨_, rfl, rfl, ?_⟩
  have hreg := (s.reg x).isLt
  rw [setI_i, glyphAddress, BitVec.toNat_mul, BitVec.toNat_setWidth]
  change (s.reg x).toNat % 2 ^ 16 * 5 % 2 ^ 16 = _
  omega

/-- Settles O47: the flag reaches `VF` alone, and the sum sees it where `x` is `VF`. -/
theorem addIndexCarriesAtTheLimit : Obligations.AddIndexCarriesAtTheLimit := by
  refine fun x s => ⟨rfl, fun limit c hc => ?_⟩
  have hflag := (flagByte_indexCarry limit s.i (s.reg x)).trans hc.symm
  refine ⟨rfl, ?_, fun r hr => ?_, fun hx => ?_, fun hx => ?_⟩
  · rw [reg_addIndex, if_pos (show vF = 0xF from rfl), hflag]
  · rw [reg_addIndex, if_neg (show vF ≠ r from hr.symm)]
  · rw [addIndex_i_toNat, if_neg (show vF ≠ x from hx.symm)]
  · rw [addIndex_i_toNat, if_pos (show vF = x from hx.symm), hflag]

/-- Settles O48: a register write of the number of R124. -/
theorem randomFollowsTheFormula : Obligations.RandomFollowsTheFormula := by
  refine fun x kk s => ⟨_, rfl, rfl, ?_, ?_, fun r hr => reg_setReg_of_ne hr s _⟩
  · rw [reg_setReg, if_pos rfl, randomByte_toNat]
  · rintro rfl
    rw [reg_setReg, if_pos rfl]
    exact randomByte_ne_zero _

end Sys2Proof.Claims
end

section
/-! Draw (file 44), keys and timers (file 45), and what the host reads (R55, R170). -/

namespace Sys2Proof.Machine

/-! ### Draw (R130 to R132) -/

/-- `DRW` as a picture: the cells under set sprite bits are inverted. -/
theorem pixel_drw {x y n : Nibble} {s : State} {x0 : Fin 64} {y0 : Fin 32} (hx0 : x0.val = (s.reg x).toNat % 64)
    (hy0 : y0.val = (s.reg y).toNat % 32) (row : Fin 32) (col : Fin 64) :
    (effect (.drw x y n) s).pixel row col = (s.pixel row col ^^ spriteBit s x0 y0 n.val row col) := by
  obtain rfl : x0 = startColumn (s.reg x) := Fin.ext hx0
  obtain rfl : y0 = startRow (s.reg y) := Fin.ext hy0
  exact (drawSprite_spec _ _ (s.setReg vF 0) (n := n.val) (by omega)).2.1 row col

/-- `VF` after `DRW`: whether a cell under a set sprite bit was lit. -/
theorem vF_drw {x y n : Nibble} {s : State} {x0 : Fin 64} {y0 : Fin 32} (hx0 : x0.val = (s.reg x).toNat % 64)
    (hy0 : y0.val = (s.reg y).toNat % 32) : (effect (.drw x y n) s).reg 0xF =
      if ∃ row col, spriteBit s x0 y0 n.val row col = true ∧ s.pixel row col = true then 1 else 0 := by
  obtain rfl : x0 = startColumn (s.reg x) := Fin.ext hx0
  obtain rfl : y0 = startRow (s.reg y) := Fin.ext hy0
  refine ((drawSprite_spec _ _ (s.setReg vF 0) (n := n.val) (by omega)).2.2.1 0xF).trans ?_
  rw [reg_setReg, if_pos (show vF = 0xF from rfl)]
  exact if_congr (and_iff_right rfl) rfl rfl

/-- The sprite is read from memory at `I`: what keeps both keeps it. -/
theorem spriteBit_congr {s t : State} (hm : t.mem = s.mem) (hi : t.i = s.i) (x0 : Fin 64) (y0 : Fin 32) (n : Nat)
    (row : Fin 32) (col : Fin 64) : spriteBit t x0 y0 n row col = spriteBit s x0 y0 n row col := by
  simp only [spriteBit, State.readByte, State.elemAddress, hm, hi]

/-! ### The key wait (R142) -/

/-- In an ascending list the first element that satisfies a test is the least that does. -/
theorem not_of_lt_find? {l : List Nibble} (hl : l.Pairwise (· < ·)) {p : Nibble → Bool} {k j : Nibble}
    (hk : l.find? p = some k) (hj : j ∈ l) (hlt : j < k) : p j = false := by
  obtain ⟨-, before, after, rfl, hbefore⟩ := List.find?_eq_some_iff_append.mp hk
  obtain ⟨-, hafter, -⟩ := List.pairwise_append.mp hl
  rcases List.mem_append.mp hj with hj | hj
  · simpa using hbefore j hj
  · rcases List.mem_cons.mp hj with rfl | hj
    · exact absurd hlt (lt_irrefl _)
    · exact absurd (List.rel_of_pairwise_cons hafter hj) (lt_asymm hlt)

/-- The key found is the least held key. -/
theorem firstKey_spec {s : State} {k : Nibble} (h : s.firstKey = some k) :
    s.nowInputs.keyIn.getLsbD k.val = true ∧ ∀ j, j < k.val → s.nowInputs.keyIn.getLsbD j = false := by
  have hsorted : nibbles.Pairwise (· < ·) := by decide
  have hall : ∀ j : Nibble, j ∈ nibbles := by decide
  have hheld : s.keyDown k = true := List.find?_some (p := fun k => s.keyDown k) h
  refine ⟨hheld, fun j hj => ?_⟩
  exact not_of_lt_find? (p := fun k => s.keyDown k) (j := ⟨j, by omega⟩) hsorted h (hall _) hj

end Sys2Proof.Machine

namespace Sys2Proof.Claims

open Sys2Proof.Machine

/-- Settles O49: the picture and the flag by the specification of the pixel loop, the rest by the footprint of `DRW`. -/
theorem drawInvertsTheSpriteAndReportsCollision : Obligations.DrawInvertsTheSpriteAndReportsCollision := by
  intro x y n s x0 y0 hx0 hy0
  refine ⟨_, exec_eq_effect (.drw x y n) s, effect_keeps (.drw x y n) s, pixel_drw hx0 hy0,
    fun r hr => reg_drw_of_ne hr x y n s, fun h => ?_, fun h => ?_, recorded_drw x y n s⟩
  · rw [vF_drw hx0 hy0, if_pos h]
  · rw [vF_drw hx0 hy0, if_neg h]

/-- Settles O50: the second draw inverts the same cells again; it meets a lit cell where the first met a dark one. -/
theorem drawingTwiceRestoresTheScreen : Obligations.DrawingTwiceRestoresTheScreen := by
  intro x y n s x0 y0 hx hy hx0 hy0
  have ht := effect_keeps (.drw x y n) s
  have hx1 : x0.val = ((effect (.drw x y n) s).reg x).toNat % 64 := by rwa [reg_drw_of_ne hx]
  have hy1 : y0.val = ((effect (.drw x y n) s).reg y).toNat % 32 := by rwa [reg_drw_of_ne hy]
  have hsprite := spriteBit_congr (ht.mem (by simp [writes])) (ht.i (by simp [writes])) x0 y0 n.val
  refine ⟨_, _, exec_eq_effect _ s, exec_eq_effect _ _, fun row col => ?_, ?_⟩
  · rw [pixel_drw hx1 hy1, hsprite, pixel_drw hx0 hy0, Bool.xor_assoc, Bool.xor_self, Bool.xor_false]
  · have hcell : ∀ row col, (spriteBit s x0 y0 n.val row col = true ∧ (effect (.drw x y n) s).pixel row col = true) ↔
        (spriteBit s x0 y0 n.val row col = true ∧ s.pixel row col = false) := fun row col =>
      and_congr_right fun hbit => by rw [pixel_drw hx0 hy0, hbit, Bool.xor_true, Bool.not_eq_true']
    rw [vF_drw hx1 hy1]
    simp only [hsprite, hcell]
    split
    case isTrue h => exact iff_of_true rfl h
    case isFalse h => exact iff_of_false (by decide) h

/-- Settles O51: the check of the value, then the skip. -/
theorem keySkipsTestTheKeyOfTheLowNibble : Obligations.KeySkipsTestTheKeyOfTheLowNibble := by
  refine fun x s => ⟨⟨_, exec_eq_effect (.skp x) s, effect_keeps (.skp x) s, pc_effect (.skp x) s, fun c => ?_⟩,
    ⟨_, exec_eq_effect (.sknp x) s, effect_keeps (.sknp x) s, pc_effect (.sknp x) s, fun c => ?_⟩⟩
  · rw [recorded_effect, conditionHolds_skp]
  · rw [recorded_effect, conditionHolds_sknp]

/-- Settles O52: no key found is none held; the key found is the least. -/
theorem keyWaitReexecutesUntilAKeyIsHeld : Obligations.KeyWaitReexecutesUntilAKeyIsHeld := by
  refine fun x s => ⟨fun h => ?_, fun h => ?_⟩
  · rw [exec_eq_effect, effect_ldK_none x ((firstKey_eq_none s).mpr h)]
    rfl
  · obtain ⟨k, hk⟩ := Option.ne_none_iff_exists'.mp (mt (firstKey_eq_none s).mp h)
    have hval : (BitVec.ofNat 8 k.val).toNat = k.val := Nat.mod_eq_of_lt (by omega)
    refine ⟨_, exec_eq_effect (.ldK x) s, ?_⟩
    rw [effect_ldK_some x hk]
    refine ⟨rfl, fun r hr => reg_setReg_of_ne hr s _, k.val, k.isLt, ?_, firstKey_spec hk⟩
    rw [reg_setReg, if_pos rfl, hval]

/-- Settles O53: a register write of `DT`, and the writes of the two timers. -/
theorem timerInstructionsCopy : Obligations.TimerInstructionsCopy := by
  refine fun x s => ⟨⟨_, rfl, rfl, fun r => ?_⟩, rfl, rfl⟩
  rw [reg_setReg]
  simp [eq_comm]

/-- Settles O31: a cell's address gives its row and column back. -/
theorem hostReadsPixelsAndTone : Obligations.HostReadsPixelsAndTone := by
  refine fun s row col => ⟨?_, ?_⟩
  · have haddr : (BitVec.ofNat 11 (row.val * 64 + col.val)).toNat = row.val * 64 + col.val :=
      Nat.mod_eq_of_lt (by omega)
    have hrow : Fin.ofNat 32 ((row.val * 64 + col.val) / 64) = row := Fin.ext (by rw [Fin.val_ofNat]; omega)
    have hcol : Fin.ofNat 64 (row.val * 64 + col.val) = col := Fin.ext (by rw [Fin.val_ofNat]; omega)
    rw [State.fbData, haddr, hrow, hcol]
  · have hzero : s.st = 0 ↔ s.st.toNat = 0 := BitVec.toNat_inj.symm
    rw [State.tone, bne_iff_ne, Ne, hzero]

end Sys2Proof.Claims
end
